-- ==== Sys2Proof/Word.lean ====
section
/-! DEFINITION. The word types of the core: an 8-bit data byte, a 16-bit address or instruction word, a 4-bit field that names
a register, a key or a sprite height, and the 12-bit address of the instruction word (10_state.md R4, R6, R7; 30_encoding.md R30). -/

namespace Sys2Proof

/-- A register or memory byte (10_state.md R4, R13). -/
abbrev Byte := BitVec 8

/-- A 16-bit quantity: `I`, `pc`, a return address, an instruction word (10_state.md R6, R7, R14). -/
abbrev Word := BitVec 16

/-- A four-bit field of the instruction word (30_encoding.md R30). -/
abbrev Nibble := BitVec 4

/-- The number of a general register, `V0` to `VF` (10_state.md R4). -/
abbrev Reg := Nibble

/-- The 12-bit address field `nnn` (30_encoding.md R30). -/
abbrev Addr12 := BitVec 12

/-- `VF`, the flag register (10_state.md R5). -/
abbrev VF : Reg := 15#4

end Sys2Proof
end

