-- ==== Sys2Proof/Config.lean ====
section
/-! DEFINITION. The configuration record of the core (00_scope.md R2, R3) and the one free value of the model, the random byte
of CXNN (41_alu.md R58; 92_eei_decisions.md D22). -/

namespace Sys2Proof

/-- The quirk configuration: exactly five toggles, with the defaults of 00_scope.md R3. -/
structure Quirks where
  /-- `shift_ignore_vy`, read by 8XY6 and 8XYE. -/
  shiftIgnoreVy : Bool := true
  /-- `jump_w_offset_use_vx`, read by BNNN. -/
  jumpWOffsetUseVx : Bool := false
  /-- `store_load_mem_use_i`, read by FX55 and FX65. -/
  storeLoadMemUseI : Bool := false
  /-- `logic_ops_reset_vf`, read by 8XY0 to 8XY3. -/
  logicOpsResetVf : Bool := false
  /-- `display_wait`, read by DXYN. -/
  displayWait : Bool := true
  deriving DecidableEq, Repr

/-- The configuration record of 00_scope.md R2 with its defaults. The ROM is an argument of construction
(70_reset_and_hazards.md R97), not a field. -/
structure Config where
  /-- `MEM_SIZE` -/
  memSize : Nat := 4096
  /-- `ROM_START` -/
  romStart : Nat := 0x200
  /-- `FONT_START` -/
  fontStart : Nat := 0x50
  /-- `WIDTH` -/
  width : Nat := 64
  /-- `HEIGHT` -/
  height : Nat := 32
  /-- `CYCLES_PER_TICK`, read by the host protocol only -/
  cyclesPerTick : Nat := 10
  /-- `DISPLAY_FREQUENCY` in Hz, read by no rule of the core -/
  displayFrequency : Nat := 60
  /-- `STACK_DEPTH`; `none` is `unbounded` -/
  stackDepth : Option Nat := some 16
  /-- the five toggles of 00_scope.md R3 -/
  quirks : Quirks := {}
  deriving DecidableEq, Repr

/-- The configuration with every field at its default (00_scope.md R2). -/
def Config.defaults : Config := {}

/-- FREE VALUE (log entry 2, DESIGN CHOICE): the random byte that the injected source supplies at its `n`-th draw. It has no
body: "`any value`: one free byte per CXNN execution" (93_implementation_defined.md K11). -/
opaque Config.randByte (n : Nat) : Byte

end Sys2Proof
end

