-- ==== Sys2Proof/Machine/State.lean ====
section
/-! DEFINITION. The state of the core (10_state.md R4 to R19), the outputs a step leaves, the reasons a step could stop, and
the state right after construction with the default configuration and an empty ROM. -/

namespace Sys2Proof.Machine

/-- How a step ended (60_exceptions.md R77). -/
inductive StepOutcome where
  /-- normal completion -/
  | advanced
  /-- `pc` rewound by 2 -/
  | repeated
  /-- the fetched bytes fail decode; skipped -/
  | decodeFailed
  deriving DecidableEq, Repr

/-- A reported condition with the value the failure table of 60_exceptions.md records for it (R79 to R81, R87). -/
inductive LogEvent where
  /-- the failing word's address and its 0, 1 or 2 bytes -/
  | decodeFailure (address : Word) (bytes : List Byte)
  /-- the address of a `RET` that found the stack empty -/
  | stackUnderflow (address : Word)
  /-- the address of a `CALL` that found the stack full -/
  | stackOverflow (address : Word)
  deriving DecidableEq, Repr

/-- The byte buffer as plain data: (address, byte) pairs, addresses strictly rising, no entry equal to what an unlisted address
reads as (Machine/Memory.lean; log entry 7). -/
abbrev Memory := List Host.Cell

/-- The state of the core. -/
structure State where
  /-- the configuration record, read-only for the run (00_scope.md R2; log entry 1) -/
  cfg : Config
  /-- `V0` to `VF` (10_state.md R4) -/
  v : Vector Byte 16
  /-- the index register `I` (10_state.md R6) -/
  i : Word
  /-- the program counter (10_state.md R7) -/
  pc : Word
  /-- `DT`, the delay timer (10_state.md R9) -/
  dt : Byte
  /-- `ST`, the sound timer (10_state.md R10) -/
  st : Byte
  /-- the keypad latch, true meaning pressed (10_state.md R11) -/
  keys : Vector Bool 16
  /-- the framebuffer, row-major: pixel (x, y) is element `y * WIDTH + x` (10_state.md R12) -/
  fb : List Bool
  /-- memory (10_state.md R13) -/
  mem : Memory
  /-- the call stack, its top first (10_state.md R14) -/
  stack : List Word
  /-- `dirty` (10_state.md R17) -/
  dirty : Bool
  /-- `drew_this_tick`, the draw gate (10_state.md R18) -/
  drewThisTick : Bool
  /-- output: the outcome of the last step, `none` before the first (60_exceptions.md R77; log entry 4) -/
  outcome : Option StepOutcome
  /-- output: the log events so far, newest first (60_exceptions.md R87; log entry 5) -/
  log : List LogEvent
  /-- the model's own: how many random bytes have been drawn (log entry 2) -/
  randDraws : Nat
  deriving DecidableEq, Repr

/-- The reasons a step stops with a fault: none exists. "The core has no exceptions", "no instruction panics the engine" and
a step always completes (60_exceptions.md R83; 30_encoding.md R34), so the type has no constructor (log entry 8). -/
inductive Fault where
  deriving DecidableEq, Repr

/-- The reasons a step is refused. -/
inductive Refusal where
  /-- An instruction without a meaning yet. Only an arm of `exec` could raise it and no arm does, since every instruction has
  its meaning; safe: the machine would stop where the hardware goes on. -/
  | notModelled (mnemonic : String)
  deriving DecidableEq, Repr

/-- What a step or an instruction answers. -/
abbrev StepResult := Host.Outcome State Fault Refusal

/-- The core right after construction with the default configuration and an empty ROM (10_state.md R19,
70_reset_and_hazards.md R97; log entries 6 and 7): memory lists nothing, so it reads as the font table and zeros. -/
def State.reset : State where
  cfg := Config.defaults
  v := Vector.replicate 16 0#8
  i := 0#16
  pc := 0x200#16
  dt := 0#8
  st := 0#8
  keys := Vector.replicate 16 false
  fb := List.replicate (64 * 32) false
  mem := []
  stack := []
  dirty := false
  drewThisTick := false
  outcome := none
  log := []
  randDraws := 0

end Sys2Proof.Machine
end

