-- ==== Sys2Proof/Machine/Memory.lean ====
section
/-! DEFINITION. Memory as a canonical list of cells: what an unlisted address reads as, one-byte read and write, and the
canonical form (20_memory.md R20, R21, R25; 70_reset_and_hazards.md R99). -/

namespace Sys2Proof.Machine

/-- The font table, glyphs 0 to 7 (70_reset_and_hazards.md R99; the spec's own general-knowledge item G1). -/
def fontLow : List Byte :=
  [0xF0#8, 0x90#8, 0x90#8, 0x90#8, 0xF0#8] ++ [0x20#8, 0x60#8, 0x20#8, 0x20#8, 0x70#8] ++
  [0xF0#8, 0x10#8, 0xF0#8, 0x80#8, 0xF0#8] ++ [0xF0#8, 0x10#8, 0xF0#8, 0x10#8, 0xF0#8] ++
  [0x90#8, 0x90#8, 0xF0#8, 0x10#8, 0x10#8] ++ [0xF0#8, 0x80#8, 0xF0#8, 0x10#8, 0xF0#8] ++
  [0xF0#8, 0x80#8, 0xF0#8, 0x90#8, 0xF0#8] ++ [0xF0#8, 0x10#8, 0x20#8, 0x40#8, 0x40#8]

/-- The font table, glyphs 8 to F. -/
def fontHigh : List Byte :=
  [0xF0#8, 0x90#8, 0xF0#8, 0x90#8, 0xF0#8] ++ [0xF0#8, 0x90#8, 0xF0#8, 0x10#8, 0xF0#8] ++
  [0xF0#8, 0x90#8, 0xF0#8, 0x90#8, 0x90#8] ++ [0xE0#8, 0x90#8, 0xE0#8, 0x90#8, 0xE0#8] ++
  [0xF0#8, 0x80#8, 0x80#8, 0x80#8, 0xF0#8] ++ [0xE0#8, 0x90#8, 0x90#8, 0x90#8, 0xE0#8] ++
  [0xF0#8, 0x80#8, 0xF0#8, 0x80#8, 0xF0#8] ++ [0xF0#8, 0x80#8, 0xF0#8, 0x80#8, 0x80#8]

/-- The 80-byte font table: glyph `d` at offset `5 * d`, top row first (70_reset_and_hazards.md R99). -/
def fontTable : List Byte := fontLow ++ fontHigh

/-- What an address no cell lists reads as: the contents construction gives it before the ROM is written, the font byte inside
the font table and zero elsewhere (20_memory.md R25; 70_reset_and_hazards.md R97; log entry 7). -/
def Memory.unlisted (cfg : Config) (a : Nat) : Byte :=
  if cfg.fontStart ≤ a then fontTable.getD (a - cfg.fontStart) 0#8 else 0#8

/-- The byte at an address. -/
def Memory.readAt (cfg : Config) : Memory → Nat → Byte
  | [], a => Memory.unlisted cfg a
  | c :: rest, a => if c.1 = a then c.2 else Memory.readAt cfg rest a

/-- List the byte `b` at `a`, in place of any byte listed there. -/
def Memory.insertCell : Memory → Nat → Byte → Memory
  | [], a, b => [(a, b)]
  | c :: rest, a, b =>
    if a < c.1 then (a, b) :: c :: rest
    else if a = c.1 then (a, b) :: rest
    else c :: Memory.insertCell rest a b

/-- List nothing at `a`. -/
def Memory.removeCell : Memory → Nat → Memory
  | [], _ => []
  | c :: rest, a => if c.1 = a then Memory.removeCell rest a else c :: Memory.removeCell rest a

/-- Store `b` at `a`, keeping the canonical form: a byte equal to what the address reads as unlisted is not listed. -/
def Memory.writeAt (cfg : Config) (m : Memory) (a : Nat) (b : Byte) : Memory :=
  if b = Memory.unlisted cfg a then m.removeCell a else m.insertCell a b

/-- The canonical form: addresses strictly rising and inside the byte buffer, no entry equal to what its address reads as
unlisted. Two memories in this form that read alike everywhere are equal data. -/
abbrev Memory.wf (cfg : Config) (m : Memory) : Prop :=
  (m.map Prod.fst).Pairwise (· < ·) ∧ ∀ c ∈ m, c.1 < cfg.memSize ∧ c.2 ≠ Memory.unlisted cfg c.1

end Sys2Proof.Machine
end

