-- ==== Sys2Proof/Machine/Ops.lean ====
section
/-! DEFINITION. The named operations over registers, the call stack, memory and the step's outputs: every meaning is written
over these. The core has no trap entry and no trap return (60_exceptions.md R83): in their place stands `decodeFailed`, the one
failure that ends a step, and `State.report`, the log event of the two stack conditions. -/

namespace Sys2Proof.Machine

/-! Registers. -/

/-- Read `V[r]` (10_state.md R4). -/
def State.getV (s : State) (r : Reg) : Byte := s.v[r.toNat]'r.isLt

/-- Write `V[r] <- b` (10_state.md R4). -/
def State.setV (s : State) (r : Reg) (b : Byte) : State := { s with v := s.v.set r.toNat b r.isLt }

/-- Write the whole register file. -/
def State.setRegs (s : State) (v : Vector Byte 16) : State := { s with v := v }

/-- Write a flag result to `VF`: 1 or 0 (10_state.md R5). -/
def State.setFlag (s : State) (flag : Bool) : State := s.setV VF (if flag then 1#8 else 0#8)

/-- Write `I <- a` (10_state.md R6). -/
def State.setI (s : State) (a : Word) : State := { s with i := a }

/-- Write `pc <- t` (10_state.md R8: a 16-bit value, so every sum is modulo 65536). -/
def State.setPc (s : State) (t : Word) : State := { s with pc := t }

/-- Write `DT` (10_state.md R9). -/
def State.setDt (s : State) (b : Byte) : State := { s with dt := b }

/-- Write `ST` (10_state.md R10). -/
def State.setSt (s : State) (b : Byte) : State := { s with st := b }

/-- The key flag `key[k]` (10_state.md R11). -/
def State.getKey (s : State) (k : Nibble) : Bool := s.keys[k.toNat]'k.isLt

/-- Set or clear the key flag `key[k]`; only the host does (60_exceptions.md R90). -/
def State.setKey (s : State) (k : Nibble) (down : Bool) : State := { s with keys := s.keys.set k.toNat down k.isLt }

/-! The program counter. -/

/-- The fetch advance `pc <- pc + 2` (30_encoding.md R34), which a taken skip repeats (40_control_flow.md R36). -/
def State.advancePc (s : State) : State := s.setPc (s.pc + 2#16)

/-- The rewind `pc <- pc - 2` of a repeated step (60_exceptions.md R78). -/
def State.rewindPc (s : State) : State := s.setPc (s.pc - 2#16)

/-- The executing instruction's own address: `pc` holds it plus 2 (10_state.md R7). -/
def State.ownAddress (s : State) : Word := s.pc - 2#16

/-! The call stack. -/

/-- Whether `len(stack) < STACK_DEPTH` (10_state.md R15). -/
def State.stackHasRoom (s : State) : Bool :=
  match s.cfg.stackDepth with
  | none => true
  | some depth => decide (s.stack.length < depth)

/-- Write the whole call stack. -/
def State.setStack (s : State) (st : List Word) : State := { s with stack := st }

/-- `push(a)`: append a new top and report success, or `none` on overflow (10_state.md R15). -/
def State.push (s : State) (a : Word) : Option State :=
  if s.stackHasRoom then some (s.setStack (a :: s.stack)) else none

/-- `pop()`: the top and the state without it, or `none` on underflow (10_state.md R15). -/
def State.pop (s : State) : Option (Word × State) :=
  match s.stack with
  | [] => none
  | top :: rest => some (top, s.setStack rest)

/-! Memory. -/

/-- Write the whole memory. -/
def State.setMem (s : State) (m : Memory) : State := { s with mem := m }

/-- A data address: any natural, reduced modulo `MEM_SIZE` (20_memory.md R20, R21; 92_eei_decisions.md D5). -/
def State.dataAddress (s : State) (a : Nat) : Nat := a % s.cfg.memSize

/-- `MemRead(a, 1)` (20_memory.md R20). -/
def State.readMem (s : State) (a : Nat) : Byte := Memory.readAt s.cfg s.mem (s.dataAddress a)

/-- `MemWrite(a, 1, b)` (20_memory.md R21). -/
def State.writeMem (s : State) (a : Nat) (b : Byte) : State :=
  s.setMem (Memory.writeAt s.cfg s.mem (s.dataAddress a) b)

/-- Byte writes at consecutive addresses from `a`, in ascending order (20_memory.md R21, R26). -/
def State.writeBytes (s : State) (a : Nat) : List Byte → State
  | [] => s
  | b :: rest => (s.writeMem a b).writeBytes (a + 1) rest

/-- `Fetch(pc)`: the bytes at `pc` and `pc + 1`, each only if it lies below `MEM_SIZE`, without wrapping (20_memory.md R22). -/
def State.fetch (s : State) : List Byte :=
  let a := s.pc.toNat
  if a + 1 < s.cfg.memSize then [Memory.readAt s.cfg s.mem a, Memory.readAt s.cfg s.mem (a + 1)]
  else if a < s.cfg.memSize then [Memory.readAt s.cfg s.mem a]
  else []

/-! How a step ends (60_exceptions.md R77 to R79). -/

/-- Set the step's outcome output. -/
def State.setOutcome (s : State) (o : StepOutcome) : State := { s with outcome := some o }

/-- Emit a log event (60_exceptions.md R87). -/
def State.report (s : State) (e : LogEvent) : State := { s with log := e :: s.log }

/-- `outcome <- Advanced`. -/
def advanced (s : State) : StepResult := .next (s.setOutcome .advanced)

/-- `outcome <- Repeated`, with the rewind as the only state change (60_exceptions.md R78). -/
def repeated (s : State) : StepResult := .next (s.rewindPc.setOutcome .repeated)

/-- A decode failure of the bytes fetched at `address`, in the state after the fetch advance: logged, nothing else changes
(60_exceptions.md R79). -/
def decodeFailed (address : Word) (bytes : List Byte) (s : State) : StepResult :=
  .next ((s.report (.decodeFailure address bytes)).setOutcome .decodeFailed)

end Sys2Proof.Machine
end

