-- ==== Sys2Proof/Machine/Flags.lean ====
section
/-! DEFINITION. The flag computations: what an instruction writes to `VF` (10_state.md R5; 41_alu.md R48, R53 to R57). Each is
computed from operand values read before any write and written last (70_reset_and_hazards.md R101, R102). -/

namespace Sys2Proof.Machine

/-- Carry of 8XY4: the wrapped sum is less than the pre-update `Vx` (41_alu.md R53). -/
def carryOfAdd (a b : Byte) : Bool := decide (a + b < a)

/-- No-borrow of a subtraction: minuend ≥ subtrahend (41_alu.md R54, R56). -/
def noBorrow (minuend subtrahend : Byte) : Bool := decide (subtrahend ≤ minuend)

/-- The bit a right shift shifts out: bit 0 (41_alu.md R55). -/
def shiftedOutRight (b : Byte) : Bool := b.getLsbD 0

/-- The bit a left shift shifts out: bit 7 (41_alu.md R57). -/
def shiftedOutLeft (b : Byte) : Bool := b.getLsbD 7

/-- The logic-op flag reset: `V[15] <- 0` under `logic_ops_reset_vf` (41_alu.md R48). -/
def State.logicReset (s : State) : State := if s.cfg.quirks.logicOpsResetVf then s.setFlag false else s

end Sys2Proof.Machine
end

