-- ==== Sys2Proof/Machine/Operands.lean ====
section
/-! DEFINITION. The operand forms: which register or address an instruction reads, where a quirk toggle or a mask decides
(40_control_flow.md R44; 41_alu.md R55, R57; 42_index_memory.md R61 to R64; 44_keypad_timers.md R70, R73). -/

namespace Sys2Proof.Machine

/-- The value a shift shifts: `V[x]` under `shift_ignore_vy`, else `V[y]` (41_alu.md R55, R57). -/
def State.shiftSource (s : State) (x y : Reg) : Byte :=
  if s.cfg.quirks.shiftIgnoreVy then s.getV x else s.getV y

/-- The base of a jump with offset: `V[x]` under `jump_w_offset_use_vx`, else `V[0]` (40_control_flow.md R44). -/
def State.jumpBase (s : State) (x : Reg) : Byte :=
  if s.cfg.quirks.jumpWOffsetUseVx then s.getV x else s.getV 0#4

/-- The key a register value names: its low nibble (44_keypad_timers.md R70; 92_eei_decisions.md D11). -/
def keyIndex (b : Byte) : Nibble := b.extractLsb' 0 4

/-- The least pressed key, by an ascending scan of the latch from index `k` (44_keypad_timers.md R73). -/
def leastPressed : List Bool → Nat → Option Nat
  | [], _ => none
  | down :: rest, k => if down then some k else leastPressed rest (k + 1)

/-- The least `k` with `key[k]`, if any key is held (44_keypad_timers.md R73). -/
def State.leastKey (s : State) : Option Nat := leastPressed s.keys.toList 0

/-- The address of the glyph of a register value's low nibble (42_index_memory.md R61). -/
def State.glyphAddress (s : State) (b : Byte) : Nat := s.cfg.fontStart + 5 * (b.extractLsb' 0 4 : Nibble).toNat

/-- The hundreds, tens and units digits, most significant first (42_index_memory.md R62). -/
def bcdDigits (b : Byte) : List Byte :=
  [BitVec.ofNat 8 (b.toNat / 100), BitVec.ofNat 8 (b.toNat / 10 % 10), BitVec.ofNat 8 (b.toNat % 10)]

/-- The values of `V0` to `V[x]`, in ascending order (42_index_memory.md R63). -/
def State.regsUpTo (s : State) (x : Reg) : List Byte := s.v.toList.take (x.toNat + 1)

/-- `I` after a block store or load: advanced by `x + 1` modulo `MEM_SIZE` under `store_load_mem_use_i`, else unchanged
(42_index_memory.md R63, R64; 92_eei_decisions.md D9). -/
def State.blockAdvance (s : State) (x : Reg) : Word :=
  if s.cfg.quirks.storeLoadMemUseI then BitVec.ofNat 16 (s.dataAddress (s.i.toNat + x.toNat + 1)) else s.i

/-- `V[k] <- MemRead(base + k, 1)` for the first `count` registers in ascending order (42_index_memory.md R64). -/
def State.loadRegs (s : State) (base : Nat) : Nat → Vector Byte 16 → Vector Byte 16
  | 0, v => v
  | count + 1, v => (State.loadRegs s base count v).setIfInBounds count (s.readMem (base + count))

end Sys2Proof.Machine
end

