-- ==== Sys2Proof/Machine/Alu.lean ====
section
/-! DEFINITION. Register arithmetic, logic, shifts and random (41_alu.md R45 to R58). Byte addition and subtraction wrap modulo
256 (R45). -/

namespace Sys2Proof.Machine

/-- 6XNN `LD Vx, nn` (41_alu.md R46). -/
def execLdImm (x : Reg) (nn : Byte) (s : State) : StepResult := advanced (s.setV x nn)

/-- 7XNN `ADD Vx, nn`, no flag (41_alu.md R47; 92_eei_decisions.md D19). -/
def execAddImm (x : Reg) (nn : Byte) (s : State) : StepResult := advanced (s.setV x (s.getV x + nn))

/-- 8XY0 `LD Vx, Vy` (41_alu.md R49). -/
def execLdReg (x y : Reg) (s : State) : StepResult := advanced (s.setV x (s.getV y)).logicReset

/-- 8XY1 `OR Vx, Vy` (41_alu.md R50). -/
def execOrReg (x y : Reg) (s : State) : StepResult := advanced (s.setV x (s.getV x ||| s.getV y)).logicReset

/-- 8XY2 `AND Vx, Vy` (41_alu.md R51). -/
def execAndReg (x y : Reg) (s : State) : StepResult := advanced (s.setV x (s.getV x &&& s.getV y)).logicReset

/-- 8XY3 `XOR Vx, Vy` (41_alu.md R52). -/
def execXorReg (x y : Reg) (s : State) : StepResult := advanced (s.setV x (s.getV x ^^^ s.getV y)).logicReset

/-- 8XY4 `ADD Vx, Vy` with carry (41_alu.md R53). -/
def execAddReg (x y : Reg) (s : State) : StepResult :=
  let a := s.getV x
  let b := s.getV y
  advanced ((s.setV x (a + b)).setFlag (carryOfAdd a b))

/-- 8XY5 `SUB Vx, Vy` (41_alu.md R54). -/
def execSubReg (x y : Reg) (s : State) : StepResult :=
  let a := s.getV x
  let b := s.getV y
  advanced ((s.setV x (a - b)).setFlag (noBorrow a b))

/-- 8XY6 `SHR Vx, Vy`, a logical shift (41_alu.md R55; 92_eei_decisions.md D2). -/
def execShr (x y : Reg) (s : State) : StepResult :=
  let b := s.shiftSource x y
  advanced ((s.setV x (b >>> 1)).setFlag (shiftedOutRight b))

/-- 8XY7 `SUBN Vx, Vy` (41_alu.md R56). -/
def execSubn (x y : Reg) (s : State) : StepResult :=
  let a := s.getV x
  let b := s.getV y
  advanced ((s.setV x (b - a)).setFlag (noBorrow b a))

/-- 8XYE `SHL Vx, Vy` (41_alu.md R57). -/
def execShl (x y : Reg) (s : State) : StepResult :=
  let b := s.shiftSource x y
  advanced ((s.setV x (b <<< 1)).setFlag (shiftedOutLeft b))

/-- CXNN for the random byte `r`: `V[x] <- r & nn`, one draw consumed (41_alu.md R58; 92_eei_decisions.md D22). -/
def rndWith (r : Byte) (x : Reg) (nn : Byte) (s : State) : StepResult :=
  advanced { s.setV x (r &&& nn) with randDraws := s.randDraws + 1 }

/-- CXNN `RND Vx, nn`: the byte is the free value of the next draw (log entry 2). -/
def execRnd (x : Reg) (nn : Byte) (s : State) : StepResult := rndWith (Config.randByte s.randDraws) x nn s

end Sys2Proof.Machine
end

