-- ==== Sys2Proof/Machine/ControlFlow.lean ====
section
/-! DEFINITION. Control transfer: return, jump, call, skips, jump with offset (40_control_flow.md R36 to R44). -/

namespace Sys2Proof.Machine

/-- Skip the next instruction word if `taken` (40_control_flow.md R36). -/
def skipIf (taken : Bool) (s : State) : StepResult := advanced (if taken then s.advancePc else s)

/-- 00EE `RET` (40_control_flow.md R37; 60_exceptions.md R80). -/
def execRet (s : State) : StepResult :=
  match s.pop with
  | none => advanced (s.report (.stackUnderflow s.ownAddress))
  | some (top, s') => advanced (s'.setPc top)

/-- 1NNN `JP nnn` (40_control_flow.md R38). -/
def execJp (nnn : Addr12) (s : State) : StepResult := advanced (s.setPc (nnn.setWidth 16))

/-- 2NNN `CALL nnn` (40_control_flow.md R39; 60_exceptions.md R81). -/
def execCall (nnn : Addr12) (s : State) : StepResult :=
  match s.push s.pc with
  | none => advanced (s.report (.stackOverflow s.ownAddress))
  | some s' => advanced (s'.setPc (nnn.setWidth 16))

/-- 3XNN `SE Vx, nn` (40_control_flow.md R40). -/
def execSeImm (x : Reg) (nn : Byte) (s : State) : StepResult := skipIf (s.getV x == nn) s

/-- 4XNN `SNE Vx, nn` (40_control_flow.md R41). -/
def execSneImm (x : Reg) (nn : Byte) (s : State) : StepResult := skipIf (s.getV x != nn) s

/-- 5XY0 `SE Vx, Vy` (40_control_flow.md R42). -/
def execSeReg (x y : Reg) (s : State) : StepResult := skipIf (s.getV x == s.getV y) s

/-- 9XY0 `SNE Vx, Vy` (40_control_flow.md R43). -/
def execSneReg (x y : Reg) (s : State) : StepResult := skipIf (s.getV x != s.getV y) s

/-- BNNN `JP V0, nnn`, the target reduced to 16 bits only (40_control_flow.md R44; 92_eei_decisions.md D31). -/
def execJpV0 (x : Reg) (nnn : Addr12) (s : State) : StepResult :=
  advanced (s.setPc (nnn.setWidth 16 + (s.jumpBase x).setWidth 16))

end Sys2Proof.Machine
end

