-- ==== Sys2Proof/Machine/Display.lean ====
section
/-! DEFINITION. The display: clear screen and sprite drawing with clipping and collision (43_display.md R65 to R69). -/

namespace Sys2Proof.Machine

/-- What a draw works on: the framebuffer and whether a lit pixel has been turned off so far (`hit` of 43_display.md R67). -/
structure Canvas where
  /-- the framebuffer, row-major -/
  fb : List Bool
  /-- the collision so far -/
  hit : Bool
  deriving DecidableEq, Repr

/-- Where pixel (x, y) stands in the row-major framebuffer (10_state.md R12). -/
def pixelIndex (cfg : Config) (x y : Nat) : Nat := y * cfg.width + x

/-- The pixel `fb[x, y]`, for `x < WIDTH` and `y < HEIGHT` (10_state.md R12). -/
def pixel (cfg : Config) (fb : List Bool) (x y : Nat) : Bool := fb.getD (pixelIndex cfg x y) false

/-- One sprite bit over one position: a set bit inside the screen flips the pixel and notes a hit if it was on; anything else
changes nothing (43_display.md R67, R69). -/
def drawPixel (cfg : Config) (x y : Nat) (bit : Bool) (c : Canvas) : Canvas :=
  if bit ∧ x < cfg.width ∧ y < cfg.height then
    { fb := c.fb.set (pixelIndex cfg x y) (!pixel cfg c.fb x y), hit := c.hit || pixel cfg c.fb x y }
  else c

/-- The first `count` columns of one sprite row, bit 7 leftmost (43_display.md R67, R68). -/
def drawColumns (cfg : Config) (row : Byte) (x0 y : Nat) : Nat → Canvas → Canvas
  | 0, c => c
  | count + 1, c => drawPixel cfg (x0 + count) y (row.getLsbD (7 - count)) (drawColumns cfg row x0 y count c)

/-- The first `count` rows of the sprite at `I`, top row first (43_display.md R67, R68). -/
def drawRows (s : State) (x0 y0 : Nat) : Nat → Canvas → Canvas
  | 0, c => c
  | count + 1, c =>
    drawColumns s.cfg (s.readMem (s.i.toNat + count)) x0 (y0 + count) 8 (drawRows s x0 y0 count c)

/-- Whether the display-wait gate is closed (43_display.md R66). -/
def State.drawGated (s : State) : Bool := s.cfg.quirks.displayWait && s.drewThisTick

/-- 00E0 `CLS` (43_display.md R65). -/
def execCls (s : State) : StepResult :=
  advanced { s with fb := List.replicate (s.cfg.width * s.cfg.height) false, dirty := true }

/-- DXYN `DRW Vx, Vy, n` (43_display.md R66, R67): the start coordinates wrap, the sprite clips, `VF` is written last. -/
def execDrw (x y : Reg) (n : Nibble) (s : State) : StepResult :=
  if s.drawGated then repeated s
  else
    let c := drawRows s ((s.getV x).toNat % s.cfg.width) ((s.getV y).toNat % s.cfg.height) n.toNat
      { fb := s.fb, hit := false }
    advanced ({ s with fb := c.fb, dirty := true, drewThisTick := true }.setFlag c.hit)

end Sys2Proof.Machine
end

