-- ==== Sys2Proof/Machine/IndexMemory.lean ====
section
/-! DEFINITION. Index register, font address, BCD and block load and store (42_index_memory.md R59 to R64). -/

namespace Sys2Proof.Machine

/-- ANNN `LD I, nnn`, unreduced (42_index_memory.md R59; 92_eei_decisions.md D7). -/
def execLdI (nnn : Addr12) (s : State) : StepResult := advanced (s.setI (nnn.setWidth 16))

/-- FX1E `ADD I, Vx`: on a sum of at least `MEM_SIZE`, `I` wraps and `VF <- 1`; else `VF` is unchanged (42_index_memory.md R60;
60_exceptions.md R82; 92_eei_decisions.md D8). -/
def execAddI (x : Reg) (s : State) : StepResult :=
  let t := s.i.toNat + (s.getV x).toNat
  if s.cfg.memSize ≤ t then advanced ((s.setI (BitVec.ofNat 16 (s.dataAddress t))).setFlag true)
  else advanced (s.setI (BitVec.ofNat 16 t))

/-- FX29 `LD F, Vx` (42_index_memory.md R61). -/
def execLdF (x : Reg) (s : State) : StepResult :=
  advanced (s.setI (BitVec.ofNat 16 (s.glyphAddress (s.getV x))))

/-- FX33 `LD B, Vx` (42_index_memory.md R62). -/
def execLdB (x : Reg) (s : State) : StepResult := advanced (s.writeBytes s.i.toNat (bcdDigits (s.getV x)))

/-- FX55 `LD [I], Vx` (42_index_memory.md R63). -/
def execLdMemVx (x : Reg) (s : State) : StepResult :=
  advanced ((s.writeBytes s.i.toNat (s.regsUpTo x)).setI (s.blockAdvance x))

/-- FX65 `LD Vx, [I]` (42_index_memory.md R64). -/
def execLdVxMem (x : Reg) (s : State) : StepResult :=
  advanced ((s.setRegs (s.loadRegs s.i.toNat (x.toNat + 1) s.v)).setI (s.blockAdvance x))

end Sys2Proof.Machine
end

