-- ==== Sys2Proof/Machine/KeypadTimers.lean ====
section
/-! DEFINITION. Keypad tests, key wait and timer access (44_keypad_timers.md R70 to R76). -/

namespace Sys2Proof.Machine

/-- EX9E `SKP Vx` (44_keypad_timers.md R70, R71). -/
def execSkp (x : Reg) (s : State) : StepResult := skipIf (s.getKey (keyIndex (s.getV x))) s

/-- EXA1 `SKNP Vx` (44_keypad_timers.md R70, R72). -/
def execSknp (x : Reg) (s : State) : StepResult := skipIf (!s.getKey (keyIndex (s.getV x))) s

/-- FX07 `LD Vx, DT` (44_keypad_timers.md R74). -/
def execLdVxDt (x : Reg) (s : State) : StepResult := advanced (s.setV x s.dt)

/-- FX0A `LD Vx, K` (44_keypad_timers.md R73). -/
def execLdVxK (x : Reg) (s : State) : StepResult :=
  match s.leastKey with
  | some k => advanced (s.setV x (BitVec.ofNat 8 k))
  | none => repeated s

/-- FX15 `LD DT, Vx` (44_keypad_timers.md R75). -/
def execLdDtVx (x : Reg) (s : State) : StepResult := advanced (s.setDt (s.getV x))

/-- FX18 `LD ST, Vx` (44_keypad_timers.md R76). -/
def execLdStVx (x : Reg) (s : State) : StepResult := advanced (s.setSt (s.getV x))

end Sys2Proof.Machine
end

