-- ==== Sys2Proof/Machine/Step.lean ====
section
/-! DEFINITION. One step: fetch, advance, decode, execute (30_encoding.md R34), and how a word is placed where the next step
fetches. -/

namespace Sys2Proof.Machine

/-- One step (30_encoding.md R34); a decode failure is skipped and logged (60_exceptions.md R79). -/
def step (s : State) : Host.Outcome State Fault Refusal :=
  match decode s.fetch with
  | .ok i => exec i s.advancePc
  | .error _ => decodeFailed s.pc s.fetch s.advancePc

/-- `s` with the instruction whose low `nbits` bits are `w` stored at `pc`, where both its bytes lie below `MEM_SIZE`; elsewhere
the fetch is short and no word can be placed, so `s` itself (log entry 13). It stands for the load of a program, which the core
gets from construction only (log entry 6). -/
def State.withFetchWord (s : State) (nbits w : Nat) : State :=
  if s.pc.toNat + 1 < s.cfg.memSize then s.writeBytes s.pc.toNat (tableBytes nbits w) else s

end Sys2Proof.Machine
end

