-- ==== Sys2Proof/Machine/Construct.lean ====
section
/-! DEFINITION. Construction, the core's one reset (70_reset_and_hazards.md R97, R98). -/

namespace Sys2Proof.Machine

/-- The constraints construction checks, for a ROM of `romLen` bytes (70_reset_and_hazards.md R98). An empty ROM occupies no
range, so it overlaps nothing. -/
def validConfig (cfg : Config) (romLen : Nat) : Bool :=
  decide (1 ≤ cfg.memSize) && decide (cfg.memSize ≤ 65536) && decide (cfg.fontStart + 80 ≤ cfg.memSize) &&
  decide (cfg.romStart ≤ 0xFFFF) && decide (cfg.romStart + romLen ≤ cfg.memSize) &&
  (decide (romLen = 0) || decide (cfg.fontStart + 80 ≤ cfg.romStart) || decide (cfg.romStart + romLen ≤ cfg.fontStart)) &&
  decide (1 ≤ cfg.width) && decide (1 ≤ cfg.height) && decide (1 ≤ cfg.cyclesPerTick) &&
  (match cfg.stackDepth with
   | none => true
   | some depth => decide (1 ≤ depth))

/-- Every state element at its reset value under `cfg`, before the ROM is written (10_state.md R19): memory lists nothing, so it
reads as the font table and zeros. -/
def State.blank (cfg : Config) : State where
  cfg := cfg
  v := Vector.replicate 16 0#8
  i := 0#16
  pc := BitVec.ofNat 16 cfg.romStart
  dt := 0#8
  st := 0#8
  keys := Vector.replicate 16 false
  fb := List.replicate (cfg.width * cfg.height) false
  mem := []
  stack := []
  dirty := false
  drewThisTick := false
  outcome := none
  log := []
  randDraws := 0

/-- Construction: a core, or `none` for a construction error and no core (70_reset_and_hazards.md R97, R98; log entry 12). -/
def construct (cfg : Config) (rom : List Byte) : Option State :=
  if validConfig cfg rom.length then some ((State.blank cfg).writeBytes cfg.romStart rom) else none

end Sys2Proof.Machine
end

