-- ==== Sys2Proof/Machine/HostOps.lean ====
section
/-! DEFINITION. The host's operations on the core between steps, and the host protocol that drives them: key events, the
framebuffer read-out, the tick boundary, the batch and the tick (60_exceptions.md R88 to R94, R96). `step` applies none of
them (log entry 6). -/

namespace Sys2Proof.Machine

/-- What the input source delivers (60_exceptions.md R90, R94, R96). -/
inductive InputEvent where
  /-- `KeyDown(k)` -/
  | keyDown (k : Nibble)
  /-- `KeyUp(k)` -/
  | keyUp (k : Nibble)
  /-- `Quit` -/
  | quit
  deriving DecidableEq, Repr

/-- One drained event applied to the state; `Quit` changes none (60_exceptions.md R90, R94). -/
def keyEvent (e : InputEvent) (s : State) : State :=
  match e with
  | .keyDown k => s.setKey k true
  | .keyUp k => s.setKey k false
  | .quit => s

/-- `DT` or `ST` one tick later: one less, and never below zero (60_exceptions.md R88). -/
def countDown (b : Byte) : Byte := if b = 0#8 then 0#8 else b - 1#8

/-- The tick boundary (60_exceptions.md R88, R89). -/
def tickBoundary (s : State) : State :=
  { s with dt := countDown s.dt, st := countDown s.st, drewThisTick := false }

/-- What `read_framebuffer` gives: a snapshot of the framebuffer and the value of `dirty` (60_exceptions.md R92, R96). -/
def readFramebuffer (s : State) : List Bool × Bool := (s.fb, s.dirty)

/-- `clear_dirty` (60_exceptions.md R92). -/
def clearDirty (s : State) : State := { s with dirty := false }

/-- The read-out after a batch: the image pushed, if any, and the state after it (60_exceptions.md R92). -/
def readOut (s : State) : Option (List Bool) × State :=
  match readFramebuffer s with
  | (image, true) => (some image, clearDirty s)
  | (_, false) => (none, s)

/-- How draining or a batch ended. -/
inductive Drained where
  /-- the run goes on -/
  | running (s : State)
  /-- a `Quit` was observed: the run ends before the next fetch (60_exceptions.md R94) -/
  | ended (s : State)
  deriving DecidableEq, Repr

/-- The state at which draining, a batch or a run stands. -/
def Drained.state : Drained → State
  | .running s => s
  | .ended s => s

/-- Drain all pending events in arrival order, stopping at a `Quit` (60_exceptions.md R90, R94; log entry 14). -/
def drain : List InputEvent → State → Drained
  | [], s => .running s
  | .quit :: _, s => .ended s
  | e :: rest, s => drain rest (keyEvent e s)

/-- The steps of a batch, each preceded by its drain: `pending` lists what arrives before each of the next steps, nothing where
it has run out. A step always answers a next state (30_encoding.md R34). -/
def batch : Nat → List (List InputEvent) → State → Drained
  | 0, _, s => .running s
  | count + 1, pending, s =>
    match drain (pending.headD []) s with
    | .ended s' => .ended s'
    | .running s' =>
      match step s' with
      | .next s'' => batch count pending.tail s''
      | .fault _ => .ended s'
      | .refused _ => .ended s'

/-- What one tick leaves: the image pushed and the state after the tick boundary, or the state at the `Quit` that ended the run. -/
inductive TickResult where
  /-- the tick is complete -/
  | ticked (pushed : Option (List Bool)) (s : State)
  /-- the run ended inside the batch; its state "is then discarded" (60_exceptions.md R94) -/
  | ended (s : State)
  deriving DecidableEq, Repr

/-- One tick: phase (a), `CYCLES_PER_TICK` steps; phase (b), the read-out; then the tick boundary (60_exceptions.md R93). -/
def tick (pending : List (List InputEvent)) (s : State) : TickResult :=
  match batch s.cfg.cyclesPerTick pending s with
  | .ended s' => .ended s'
  | .running s' => .ticked (readOut s').1 (tickBoundary (readOut s').2)

/-- What a run has done: the images pushed to the host, oldest first, and where it stands. -/
structure RunResult where
  /-- the images pushed by the read-outs of the complete ticks -/
  images : List (List Bool)
  /-- the state after the last complete tick, or the state at the `Quit` that ended the run -/
  last : Drained
  deriving DecidableEq, Repr

/-- A tick's result followed by what the run does from the state it leaves: a `Quit` ends the run. -/
def TickResult.andThen (rest : State → RunResult) : TickResult → RunResult
  | .ended s => { images := [], last := .ended s }
  | .ticked pushed s => { images := pushed.toList ++ (rest s).images, last := (rest s).last }

/-- Tick after tick until a `Quit` (60_exceptions.md R93, R94): `input` lists, for each of the next ticks, the events that arrive
before each of its steps. Without a `Quit` the run goes on for as many ticks as are listed, and the host would go on (log
entry 6). -/
def runTicks : List (List (List InputEvent)) → State → RunResult
  | [], s => { images := [], last := .running s }
  | pending :: later, s => (tick pending s).andThen (runTicks later)

/-- A run: construct the core, then repeat the tick until a `Quit` (60_exceptions.md R93); `none` where construction fails and no
core exists. The sleep between ticks is the host's and is left out (00_scope.md, scope table). -/
def hostRun (cfg : Config) (rom : List Byte) (input : List (List (List InputEvent))) : Option RunResult :=
  (construct cfg rom).map (runTicks input)

end Sys2Proof.Machine
end

