-- ==== Sys2Proof/Safety.lean ====
section
/-! DEFINITION. The terms statements use: the invariant every reachable state satisfies, the elements of the state with what
"unchanged" means for each, and what each instruction may write, as its rule names it. -/

namespace Sys2Proof.Machine

/-! The invariant. -/

/-- The stack holds at most `STACK_DEPTH` entries (10_state.md R14). -/
def State.stackBounded (s : State) : Bool :=
  match s.cfg.stackDepth with
  | none => true
  | some depth => decide (s.stack.length ≤ depth)

/-- What construction establishes and every step and host operation keeps: a configuration that construction accepts, memory in
its canonical form inside the byte buffer, a framebuffer of `WIDTH * HEIGHT` pixels, a stack within its depth
(10_state.md R12, R14; 20_memory.md R25; 70_reset_and_hazards.md R98). -/
abbrev State.Inv (s : State) : Prop :=
  validConfig s.cfg 0 = true ∧ Memory.wf s.cfg s.mem ∧ s.fb.length = s.cfg.width * s.cfg.height ∧ s.stackBounded = true

/-! Frames. -/

/-- The elements of the state. -/
inductive Element where
  | cfg | regs | index | pc | dt | st | keys | fb | mem | stack | dirty | drewThisTick | outcome | log | randDraws
  deriving DecidableEq, Repr

/-- An element is the same in two states: registers and keys one by one, memory byte by byte at every address. -/
def Same : Element → State → State → Prop
  | .cfg, s, t => t.cfg = s.cfg
  | .regs, s, t => ∀ r, t.getV r = s.getV r
  | .index, s, t => t.i = s.i
  | .pc, s, t => t.pc = s.pc
  | .dt, s, t => t.dt = s.dt
  | .st, s, t => t.st = s.st
  | .keys, s, t => ∀ k, t.getKey k = s.getKey k
  | .fb, s, t => t.fb = s.fb
  | .mem, s, t => ∀ a, t.readMem a = s.readMem a
  | .stack, s, t => t.stack = s.stack
  | .dirty, s, t => t.dirty = s.dirty
  | .drewThisTick, s, t => t.drewThisTick = s.drewThisTick
  | .outcome, s, t => t.outcome = s.outcome
  | .log, s, t => t.log = s.log
  | .randDraws, s, t => t.randDraws = s.randDraws

/-- From `s` to `t` nothing but the elements of `written` changes. -/
def OnlyWrites (written : List Element) (s t : State) : Prop := ∀ e, e ∉ written → Same e s t

/-- The elements besides `pc` and the step's outcome that an instruction's rule lets it write. -/
def writesOf : Instr → List Element
  | .cls => [.fb, .dirty]
  | .ret => [.stack, .log]
  | .jp _ => []
  | .call _ => [.stack, .log]
  | .seImm _ _ => []
  | .sneImm _ _ => []
  | .seReg _ _ => []
  | .ldImm _ _ => [.regs]
  | .addImm _ _ => [.regs]
  | .ldReg _ _ => [.regs]
  | .orReg _ _ => [.regs]
  | .andReg _ _ => [.regs]
  | .xorReg _ _ => [.regs]
  | .addReg _ _ => [.regs]
  | .subReg _ _ => [.regs]
  | .shr _ _ => [.regs]
  | .subn _ _ => [.regs]
  | .shl _ _ => [.regs]
  | .sneReg _ _ => []
  | .ldI _ => [.index]
  | .jpV0 _ _ => []
  | .rnd _ _ => [.regs, .randDraws]
  | .drw _ _ _ => [.regs, .fb, .dirty, .drewThisTick]
  | .skp _ => []
  | .sknp _ => []
  | .ldVxDt _ => [.regs]
  | .ldVxK _ => [.regs]
  | .ldDtVx _ => [.dt]
  | .ldStVx _ => [.st]
  | .addI _ => [.index, .regs]
  | .ldF _ => [.index]
  | .ldB _ => [.mem]
  | .ldMemVx _ => [.mem, .index]
  | .ldVxMem _ => [.regs, .index]

/-- Whether an instruction executed in `s` may write `V[r]`: its destination, and `VF` where its rule makes it write the flag
(10_state.md R5). -/
def writesReg (s : State) (r : Reg) : Instr → Bool
  | .cls => false
  | .ret => false
  | .jp _ => false
  | .call _ => false
  | .seImm _ _ => false
  | .sneImm _ _ => false
  | .seReg _ _ => false
  | .ldImm x _ => r == x
  | .addImm x _ => r == x
  | .ldReg x _ => r == x || (r == VF && s.cfg.quirks.logicOpsResetVf)
  | .orReg x _ => r == x || (r == VF && s.cfg.quirks.logicOpsResetVf)
  | .andReg x _ => r == x || (r == VF && s.cfg.quirks.logicOpsResetVf)
  | .xorReg x _ => r == x || (r == VF && s.cfg.quirks.logicOpsResetVf)
  | .addReg x _ => r == x || r == VF
  | .subReg x _ => r == x || r == VF
  | .shr x _ => r == x || r == VF
  | .subn x _ => r == x || r == VF
  | .shl x _ => r == x || r == VF
  | .sneReg _ _ => false
  | .ldI _ => false
  | .jpV0 _ _ => false
  | .rnd x _ => r == x
  | .drw _ _ _ => r == VF
  | .skp _ => false
  | .sknp _ => false
  | .ldVxDt x => r == x
  | .ldVxK x => r == x
  | .ldDtVx _ => false
  | .ldStVx _ => false
  | .addI x => r == VF && decide (s.cfg.memSize ≤ s.i.toNat + (s.getV x).toNat)
  | .ldF _ => false
  | .ldB _ => false
  | .ldMemVx _ => false
  | .ldVxMem x => decide (r.toNat ≤ x.toNat)

/-! The sprite. -/

/-- Whether the `n`-row sprite at `I`, drawn with its top left corner at (x0, y0), has a set bit at column `px`, row `py`: bit 7
of a row byte is its leftmost column, the first byte the top row (43_display.md R68). -/
def spriteCovers (s : State) (x0 y0 n px py : Nat) : Bool :=
  decide (x0 ≤ px) && decide (px < x0 + 8) && decide (y0 ≤ py) && decide (py < y0 + n) &&
    (s.readMem (s.i.toNat + (py - y0))).getLsbD (7 - (px - x0))

end Sys2Proof.Machine
end

