-- ==== Sys2Proof/Certificates/Slice0/Obligations.lean ====
section
/-! DEFINITION. The statements for the provers, from the numbered rules of spec/. A statement that rests on a decision the spec
marks as its own names that decision ("D<n>" of 92_eei_decisions.md). `exec i s` is execution in the state after the fetch
advance, so `s.pc` is the instruction's own address plus 2 (10_state.md R7). The fields `outcome` and `log` are where the model
keeps the step's outputs of 60_exceptions.md R77 and R87 (log entries 4 and 5). -/

open Sys2Proof Sys2Proof.Machine

/-! ## Encoding and decode -/

/-- Decode of encode gives every well-formed instruction back, with every operand at every value its field admits
(30_encoding.md R30, R31). -/
def Obligations.DecodeOfEncode : Prop :=
  ∀ i : Instr, i.wellFormed = true → decode (encodeBytes i) = .ok i

/-- Each word has one meaning: whatever two bytes decode as is well formed and encodes to those bytes (30_encoding.md R31). -/
def Obligations.EncodeOfDecode : Prop :=
  ∀ (byte0 byte1 : Byte) (i : Instr), decode [byte0, byte1] = .ok i → i.wellFormed = true ∧ encodeBytes i = [byte0, byte1]

/-- The decoder is the opcode map: a word that decodes matches its instruction's row, and a word that matches a row decodes as
an instruction of that row, so no word matches two rows (30_encoding.md R31; the mnemonics are decision D25). -/
def Obligations.DecodeFollowsTheOpcodeMap : Prop :=
  (∀ (w : Word) (i : Instr), decodeWord w = .ok i → w &&& i.row.mask = i.row.pattern) ∧
  (∀ (w : Word) (i : Instr), w &&& i.row.mask = i.row.pattern → ∃ j, decodeWord w = .ok j ∧ j.row = i.row)

/-- Decode fails exactly on the inputs 30_encoding.md R32 lists, and a failing fetch is skipped and logged as 60_exceptions.md
R79 says. -/
def Obligations.DecodeFailsExactly : Prop :=
  (∀ bytes : List Byte, bytes.length < 2 → ∃ e, decode bytes = .error e) ∧
  (∀ byte0 byte1 : Byte,
    let w := byte0.toNat * 256 + byte1.toNat
    (∃ e, decode [byte0, byte1] = .error e) ↔
      (w / 4096 = 0x0 ∧ w ≠ 0x00E0 ∧ w ≠ 0x00EE) ∨
      ((w / 4096 = 0x5 ∨ w / 4096 = 0x9) ∧ w % 16 ≠ 0) ∨
      (w / 4096 = 0x8 ∧ w % 16 ∈ [0x8, 0x9, 0xA, 0xB, 0xC, 0xD, 0xF]) ∨
      (w / 4096 = 0xE ∧ w % 256 ∉ [0x9E, 0xA1]) ∨
      (w / 4096 = 0xF ∧ w % 256 ∉ [0x07, 0x0A, 0x15, 0x18, 0x1E, 0x29, 0x33, 0x55, 0x65])) ∧
  (∀ (s : State) (e : DecodeError), decode s.fetch = .error e →
    step s = .next { s with
      pc := s.pc + 2#16
      log := .decodeFailure s.pc s.fetch :: s.log
      outcome := some .decodeFailed })

/-- Words written out from the opcode table's encodings decode as they should (30_encoding.md R31; the examples of
95_test_vectors.md W1 among them). -/
def Obligations.DecodeOfWrittenOutWords : Prop :=
  decode [0b00000000#8, 0b11100000#8] = .ok .cls ∧
  decode [0b00010010#8, 0b00110100#8] = .ok (.jp 0x234#12) ∧
  decode [0b01100011#8, 0b01000101#8] = .ok (.ldImm 3#4 0x45#8) ∧
  decode [0b10000100#8, 0b00011110#8] = .ok (.shl 4#4 1#4) ∧
  decode [0b10110011#8, 0b00000000#8] = .ok (.jpV0 3#4 0x300#12) ∧
  decode [0b11010001#8, 0b00100101#8] = .ok (.drw 1#4 2#4 5#4) ∧
  decode [0b11100010#8, 0b10100001#8] = .ok (.sknp 2#4) ∧
  decode [0b11111010#8, 0b00110011#8] = .ok (.ldB 10#4) ∧
  decode [0b01010001#8, 0b00000001#8] = .error .selector5

/-- The fields of the instruction word and where they lie in its two bytes; every instruction is two bytes
(30_encoding.md R30). -/
def Obligations.WordFieldsLieWhereStated : Prop :=
  (∀ i : Instr, (encodeBytes i).length = 2) ∧
  ∀ byte0 byte1 : Byte,
    let w := wordOfBytes byte0 byte1
    w.toNat = byte0.toNat * 256 + byte1.toNat ∧
    (fieldF w).toNat = byte0.toNat / 16 ∧
    (fieldX w).toNat = byte0.toNat % 16 ∧
    (fieldY w).toNat = byte1.toNat / 16 ∧
    (fieldN w).toNat = byte1.toNat % 16 ∧
    fieldNN w = byte1 ∧
    (fieldNNN w).toNat = byte0.toNat % 16 * 256 + byte1.toNat

/-! ## The step -/

/-- The fetch reads the bytes at `pc` and `pc + 1` that lie below `MEM_SIZE`, without wrapping: two, one or none
(20_memory.md, decision D4). -/
def Obligations.FetchStopsAtTheEndOfMemory : Prop :=
  ∀ s : State,
    (s.pc.toNat + 1 < s.cfg.memSize → s.fetch = [s.readMem s.pc.toNat, s.readMem (s.pc.toNat + 1)]) ∧
    (s.pc.toNat + 1 = s.cfg.memSize → s.fetch = [s.readMem s.pc.toNat]) ∧
    (s.cfg.memSize ≤ s.pc.toNat → s.fetch = [])

/-- When the bytes at `pc` decode, the step is execution of that instruction in the state with `pc` advanced by 2. -/
def Obligations.StepRunsTheDecodedInstruction : Prop :=
  ∀ (s : State) (i : Instr), decode s.fetch = .ok i → step s = exec i { s with pc := s.pc + 2#16 }

/-- Every step ends with exactly one outcome (60_exceptions.md R77): no step faults or is refused; `Repeated` leaves the state as
it was but for the outcome, its `pc` rewound, and only the key wait and the draw give it (60_exceptions.md R78, decision D29);
`DecodeFailed` is given exactly when decode fails, and execution advances past the bad word, logged (30_encoding.md R34,
60_exceptions.md R79); no step reads the outcome of an earlier one. -/
def Obligations.EveryStepEndsWithOneOutcome : Prop :=
  ∀ s : State, ∃ (t : State) (o : StepOutcome),
    step s = .next t ∧ t.outcome = some o ∧
    (o = .repeated → t = { s with outcome := some .repeated } ∧
      ((∃ x, decode s.fetch = .ok (.ldVxK x)) ∨ ∃ x y n, decode s.fetch = .ok (.drw x y n))) ∧
    (o = .decodeFailed ↔ ∃ e, decode s.fetch = .error e) ∧
    (o = .decodeFailed → t.pc = s.pc + 2#16 ∧ ∃ e, t.log = e :: s.log) ∧
    ∀ earlier : Option StepOutcome, step { s with outcome := earlier } = .next t

/-- A step emits at most one log event, and no step reads the log (60_exceptions.md, the order of conditions and the log
output; the recording of the log is log entry 5). -/
def Obligations.StepLogsAtMostOneEventAndReadsNone : Prop :=
  ∀ (s : State) (earlier : List LogEvent), ∃ (t : State) (new : List LogEvent),
    step s = .next t ∧ t.log = new ++ s.log ∧ new.length ≤ 1 ∧
    step { s with log := earlier } = .next { t with log := new ++ earlier }

/-- A step, and each instruction's execution, changes only the elements its rule names, besides `pc` and the outcome. -/
def Obligations.StepWritesOnlyWhatTheRuleNames : Prop :=
  (∀ (i : Instr) (s t : State), exec i s = .next t → OnlyWrites (.pc :: .outcome :: writesOf i) s t) ∧
  (∀ (s t : State) (i : Instr), decode s.fetch = .ok i → step s = .next t →
    OnlyWrites (.pc :: .outcome :: writesOf i) s t)

/-- A register changes only under an instruction that names it as destination or whose rule writes `VF`
(10_state.md, the general registers; 7XNN and FX1E by decisions D19 and D8). -/
def Obligations.RegistersChangeOnlyAsNamed : Prop :=
  ∀ (i : Instr) (s t : State) (r : Reg), exec i s = .next t → writesReg s r i = false → t.getV r = s.getV r

/-- What no step changes, and which instruction alone can change each other element: the configuration and the keys never;
`DT`, `ST`, the framebuffer, the stack, `dirty`, the draw gate and `I` only by the instructions the state rules name; a byte of
memory only at an address that FX33 or FX55 stores to (10_state.md, 20_memory.md). -/
def Obligations.EachElementHasItsOwnWriters : Prop :=
  ∀ s t : State, step s = .next t →
    t.cfg = s.cfg ∧ (∀ k, t.getKey k = s.getKey k) ∧
    (t.dt ≠ s.dt → ∃ x, decode s.fetch = .ok (.ldDtVx x)) ∧
    (t.st ≠ s.st → ∃ x, decode s.fetch = .ok (.ldStVx x)) ∧
    (t.fb ≠ s.fb ∨ t.dirty ≠ s.dirty → decode s.fetch = .ok .cls ∨ ∃ x y n, decode s.fetch = .ok (.drw x y n)) ∧
    (t.drewThisTick ≠ s.drewThisTick → ∃ x y n, decode s.fetch = .ok (.drw x y n)) ∧
    (t.stack ≠ s.stack → decode s.fetch = .ok .ret ∨ ∃ nnn, decode s.fetch = .ok (.call nnn)) ∧
    (t.i ≠ s.i → (∃ nnn, decode s.fetch = .ok (.ldI nnn)) ∨ (∃ x, decode s.fetch = .ok (.addI x)) ∨
      (∃ x, decode s.fetch = .ok (.ldF x)) ∨
      (s.cfg.quirks.storeLoadMemUseI = true ∧
        ∃ x, decode s.fetch = .ok (.ldMemVx x) ∨ decode s.fetch = .ok (.ldVxMem x))) ∧
    (∀ a, t.readMem a ≠ s.readMem a →
      (∃ x k, decode s.fetch = .ok (.ldB x) ∧ k < 3 ∧ s.dataAddress a = s.dataAddress (s.i.toNat + k)) ∨
      (∃ x k, decode s.fetch = .ok (.ldMemVx x) ∧ k ≤ x.toNat ∧ s.dataAddress a = s.dataAddress (s.i.toNat + k)))

/-! ## Reset and construction -/

/-- The state right after construction with the default configuration and an empty ROM (10_state.md Reset values, decision D14),
and every default of the configuration and of the five quirk toggles (00_scope.md R2, R3; the default of display_wait is decision
D12, of the stack depth decision D10). The reset values of the outputs are the model's choice, log entries 4 and 5, and are not
stated here. -/
def Obligations.ResetState : Prop :=
  let s := State.reset
  s.pc = 0x200#16 ∧ s.i = 0#16 ∧ s.dt = 0#8 ∧ s.st = 0#8 ∧
  (∀ r, s.getV r = 0#8) ∧ (∀ k, s.getKey k = false) ∧
  (∀ x y, x < 64 → y < 32 → pixel s.cfg s.fb x y = false) ∧
  s.stack = [] ∧ s.dirty = false ∧ s.drewThisTick = false ∧
  s.cfg.memSize = 4096 ∧ s.cfg.romStart = 0x200 ∧ s.cfg.fontStart = 0x50 ∧ s.cfg.width = 64 ∧ s.cfg.height = 32 ∧
  s.cfg.cyclesPerTick = 10 ∧ s.cfg.displayFrequency = 60 ∧ s.cfg.stackDepth = some 16 ∧
  s.cfg.quirks.shiftIgnoreVy = true ∧ s.cfg.quirks.jumpWOffsetUseVx = false ∧ s.cfg.quirks.storeLoadMemUseI = false ∧
  s.cfg.quirks.logicOpsResetVf = false ∧ s.cfg.quirks.displayWait = true ∧
  (∀ a, a < 4096 → (a < 0x50 ∨ 0xA0 ≤ a) → s.readMem a = 0#8) ∧
  construct Config.defaults [] = some s

/-- The glyphs 0 to F as memory holds them after reset, five bytes each from 0x50 (70_reset_and_hazards.md, font table,
decision D16). -/
def Obligations.ResetMemoryHoldsTheFont : Prop :=
  (List.range 80).map (fun k => State.reset.readMem (0x50 + k)) =
    [0xF0#8, 0x90#8, 0x90#8, 0x90#8, 0xF0#8, 0x20#8, 0x60#8, 0x20#8, 0x20#8, 0x70#8,
     0xF0#8, 0x10#8, 0xF0#8, 0x80#8, 0xF0#8, 0xF0#8, 0x10#8, 0xF0#8, 0x10#8, 0xF0#8] ++
    [0x90#8, 0x90#8, 0xF0#8, 0x10#8, 0x10#8, 0xF0#8, 0x80#8, 0xF0#8, 0x10#8, 0xF0#8,
     0xF0#8, 0x80#8, 0xF0#8, 0x90#8, 0xF0#8, 0xF0#8, 0x10#8, 0x20#8, 0x40#8, 0x40#8] ++
    [0xF0#8, 0x90#8, 0xF0#8, 0x90#8, 0xF0#8, 0xF0#8, 0x90#8, 0xF0#8, 0x10#8, 0xF0#8,
     0xF0#8, 0x90#8, 0xF0#8, 0x90#8, 0x90#8, 0xE0#8, 0x90#8, 0xE0#8, 0x90#8, 0xE0#8] ++
    [0xF0#8, 0x80#8, 0x80#8, 0x80#8, 0xF0#8, 0xE0#8, 0x90#8, 0x90#8, 0x90#8, 0xE0#8,
     0xF0#8, 0x80#8, 0xF0#8, 0x80#8, 0xF0#8, 0xF0#8, 0x80#8, 0xF0#8, 0x80#8, 0x80#8]

/-- Construction with a ROM and a configuration in hand fails exactly when a constraint on them fails, and else gives the core with
every element at its reset value and memory holding the ROM, the font and zeros (70_reset_and_hazards.md, construction; decisions
D14, D15, D30). That an empty ROM overlaps nothing, wherever ROM_START lies, and that an unreadable ROM and a failed peripheral are
no case of construction are the model's choices (log entry 12, DESIGN CHOICE). -/
def Obligations.ConstructionBuildsTheCore : Prop :=
  ∀ (cfg : Config) (rom : List Byte),
    ((∃ s, construct cfg rom = some s) ↔
      1 ≤ cfg.memSize ∧ cfg.memSize ≤ 65536 ∧ cfg.fontStart + 80 ≤ cfg.memSize ∧ cfg.romStart ≤ 0xFFFF ∧
      cfg.romStart + rom.length ≤ cfg.memSize ∧
      (∀ a, ¬((cfg.fontStart ≤ a ∧ a < cfg.fontStart + 80) ∧ (cfg.romStart ≤ a ∧ a < cfg.romStart + rom.length))) ∧
      1 ≤ cfg.width ∧ 1 ≤ cfg.height ∧ 1 ≤ cfg.cyclesPerTick ∧ (∀ depth, cfg.stackDepth = some depth → 1 ≤ depth)) ∧
    ∀ s, construct cfg rom = some s →
      s.cfg = cfg ∧ s.pc.toNat = cfg.romStart ∧ s.i = 0#16 ∧ s.dt = 0#8 ∧ s.st = 0#8 ∧
      (∀ r, s.getV r = 0#8) ∧ (∀ k, s.getKey k = false) ∧
      s.fb = List.replicate (cfg.width * cfg.height) false ∧
      s.stack = [] ∧ s.dirty = false ∧ s.drewThisTick = false ∧
      (∀ k, k < rom.length → s.readMem (cfg.romStart + k) = rom.getD k 0#8) ∧
      (∀ k, k < 80 → s.readMem (cfg.fontStart + k) = fontTable.getD k 0#8) ∧
      (∀ a, a < cfg.memSize → ¬(cfg.romStart ≤ a ∧ a < cfg.romStart + rom.length) →
        ¬(cfg.fontStart ≤ a ∧ a < cfg.fontStart + 80) → s.readMem a = 0#8)

/-- A program runs from `ROM_START`: the first step after construction fetches the ROM's first two bytes
(70_reset_and_hazards.md, construction and boot; decision D14). -/
def Obligations.RomRunsFromItsFirstWord : Prop :=
  ∀ (cfg : Config) (byte0 byte1 : Byte) (rest : List Byte) (s : State),
    construct cfg (byte0 :: byte1 :: rest) = some s → s.fetch = [byte0, byte1]

/-! ## The invariant -/

/-- The invariant holds after reset. -/
def Obligations.ResetHasTheInvariant : Prop := State.reset.Inv

/-- The invariant holds after every construction that succeeds. -/
def Obligations.ConstructionEstablishesTheInvariant : Prop :=
  ∀ (cfg : Config) (rom : List Byte) (s : State), construct cfg rom = some s → s.Inv

/-- Every step keeps the invariant: the configuration stays valid, memory canonical and inside the byte buffer, the framebuffer
`WIDTH * HEIGHT` pixels, the stack within its depth. -/
def Obligations.StepKeepsTheInvariant : Prop :=
  ∀ s t : State, s.Inv → step s = .next t → t.Inv

/-- Every host operation keeps the invariant: a key event, the read-out, the tick boundary. -/
def Obligations.HostOperationsKeepTheInvariant : Prop :=
  ∀ s : State, s.Inv →
    (∀ e, (keyEvent e s).Inv) ∧ (clearDirty s).Inv ∧ (readOut s).2.Inv ∧ (tickBoundary s).Inv

/-- Every complete tick of the host protocol, whatever input events arrive, keeps the invariant and leaves a clean display and an
open draw gate (60_exceptions.md, host protocol; decisions D12, D18). -/
def Obligations.TickKeepsTheInvariant : Prop :=
  ∀ (pending : List (List InputEvent)) (s t : State) (pushed : Option (List Bool)),
    s.Inv → tick pending s = .ticked pushed t → t.Inv ∧ t.dirty = false ∧ t.drewThisTick = false

/-! ## Control transfer -/

/-- 00EE (40_control_flow.md R37): an empty stack is a logged no-op, else the top is popped into `pc`, unchecked. -/
def Obligations.RetPopsOrReports : Prop :=
  decode [0x00#8, 0xEE#8] = .ok .ret ∧
  (∀ s : State, s.stack = [] →
    exec .ret s = .next { s with log := .stackUnderflow (s.pc - 2#16) :: s.log, outcome := some .advanced }) ∧
  (∀ (s : State) (top : Word) (rest : List Word), s.stack = top :: rest →
    exec .ret s = .next { s with pc := top, stack := rest, outcome := some .advanced } ∧
    (s.cfg.memSize ≤ top.toNat →
      ∃ e, decode (State.fetch { s with pc := top, stack := rest, outcome := some .advanced }) = .error e))

/-- 1NNN (40_control_flow.md R38): `pc` becomes `nnn`, as is; a jump to its own address leaves the state as it was, so it repeats
forever. -/
def Obligations.JpSetsThePc : Prop :=
  ∀ (nnn : Addr12),
    decodeWord (0x1#4 ++ nnn) = .ok (.jp nnn) ∧
    (∀ s : State, ∃ t, exec (.jp nnn) s = .next t ∧ t.outcome = some .advanced ∧ t.pc.toNat = nnn.toNat ∧
      OnlyWrites [.pc, .outcome] s t ∧ (s.cfg.memSize ≤ nnn.toNat → ∃ e, decode t.fetch = .error e)) ∧
    (∀ s : State, decode s.fetch = .ok (.jp nnn) → s.pc.toNat = nnn.toNat →
      step s = .next { s with outcome := some .advanced })

/-- 2NNN: with room on the stack the advanced `pc` is pushed and `pc` becomes `nnn`; on a full stack the call is a logged no-op
(40_control_flow.md, CALL; decision D10). -/
def Obligations.CallPushesOrReports : Prop :=
  ∀ (nnn : Addr12),
    decodeWord (0x2#4 ++ nnn) = .ok (.call nnn) ∧
    (∀ s : State, (∀ depth, s.cfg.stackDepth = some depth → s.stack.length < depth) →
      ∃ t, exec (.call nnn) s = .next t ∧ t.outcome = some .advanced ∧ t.pc.toNat = nnn.toNat ∧
        t.stack = s.pc :: s.stack ∧ OnlyWrites [.pc, .stack, .outcome] s t) ∧
    (∀ (s : State) (depth : Nat), s.cfg.stackDepth = some depth → depth ≤ s.stack.length →
      exec (.call nnn) s = .next { s with log := .stackOverflow (s.pc - 2#16) :: s.log, outcome := some .advanced })

/-- A return after an accepted call comes back to the word after the call with the stack as it was, whatever ran in between kept
the stack (40_control_flow.md, CALL and RET; decision D10). -/
def Obligations.RetAfterCallComesBack : Prop :=
  ∀ (nnn : Addr12) (s : State), (∀ depth, s.cfg.stackDepth = some depth → s.stack.length < depth) →
    ∃ t, exec (.call nnn) s = .next t ∧
      ∀ u : State, u.stack = t.stack → ∃ w, exec .ret u = .next w ∧ w.pc = s.pc ∧ w.stack = s.stack ∧ w.log = u.log

/-- 3XNN, 4XNN, 5XY0, 9XY0 (40_control_flow.md R40 to R43): each compares as its rule says and skips one word or none; a non-zero
low nibble in families 5 and 9 is a decode failure. -/
def Obligations.SkipsCompareAsStated : Prop :=
  ∀ (x y : Reg) (nn : Byte),
    decodeWord (0x3#4 ++ x ++ nn) = .ok (.seImm x nn) ∧
    decodeWord (0x4#4 ++ x ++ nn) = .ok (.sneImm x nn) ∧
    decodeWord (0x5#4 ++ x ++ y ++ 0x0#4) = .ok (.seReg x y) ∧
    decodeWord (0x9#4 ++ x ++ y ++ 0x0#4) = .ok (.sneReg x y) ∧
    (∀ n : Nibble, n ≠ 0#4 → (∃ e, decodeWord (0x5#4 ++ x ++ y ++ n) = .error e) ∧
      ∃ e, decodeWord (0x9#4 ++ x ++ y ++ n) = .error e) ∧
    ∀ s : State,
      exec (.seImm x nn) s =
        .next { s with pc := if s.getV x = nn then s.pc + 2#16 else s.pc, outcome := some .advanced } ∧
      exec (.sneImm x nn) s =
        .next { s with pc := if s.getV x ≠ nn then s.pc + 2#16 else s.pc, outcome := some .advanced } ∧
      exec (.seReg x y) s =
        .next { s with pc := if s.getV x = s.getV y then s.pc + 2#16 else s.pc, outcome := some .advanced } ∧
      exec (.sneReg x y) s =
        .next { s with pc := if s.getV x ≠ s.getV y then s.pc + 2#16 else s.pc, outcome := some .advanced }

/-- BNNN: the target is `nnn` plus `V0`, or plus `V[x]` under the quirk, not reduced to 12 bits or modulo `MEM_SIZE`
(40_control_flow.md, jump with offset; decision D31). -/
def Obligations.JpV0AddsItsBase : Prop :=
  ∀ (nnn : Addr12),
    decodeWord (0xB#4 ++ nnn) = .ok (.jpV0 (nnn.extractLsb' 8 4) nnn) ∧
    ∀ (x : Reg) (s : State), ∃ t, exec (.jpV0 x nnn) s = .next t ∧ t.outcome = some .advanced ∧
      t.pc.toNat = nnn.toNat + (if s.cfg.quirks.jumpWOffsetUseVx then s.getV x else s.getV 0#4).toNat ∧
      OnlyWrites [.pc, .outcome] s t

/-! ## Register arithmetic, logic, shifts and random -/

/-- 6XNN (41_alu.md R46). -/
def Obligations.LdImmLoads : Prop :=
  ∀ (x : Reg) (nn : Byte),
    decodeWord (0x6#4 ++ x ++ nn) = .ok (.ldImm x nn) ∧
    ∀ s : State, ∃ t, exec (.ldImm x nn) s = .next t ∧ t.outcome = some .advanced ∧
      (∀ r, t.getV r = if r = x then nn else s.getV r) ∧ OnlyWrites [.regs, .outcome] s t

/-- 7XNN: the sum wraps modulo 256 and no flag is written (41_alu.md, ADD immediate; decision D19). -/
def Obligations.AddImmWrapsWithoutFlag : Prop :=
  ∀ (x : Reg) (nn : Byte),
    decodeWord (0x7#4 ++ x ++ nn) = .ok (.addImm x nn) ∧
    ∀ s : State, ∃ t, exec (.addImm x nn) s = .next t ∧ t.outcome = some .advanced ∧
      (t.getV x).toNat = ((s.getV x).toNat + nn.toNat) % 256 ∧
      (∀ r, r ≠ x → t.getV r = s.getV r) ∧ OnlyWrites [.regs, .outcome] s t

/-- 8XY0 to 8XY3 (41_alu.md R48 to R52): copy, or, and, xor; under `logic_ops_reset_vf` `VF` ends at 0, whatever the destination,
else `VF` is written only as the destination. -/
def Obligations.LogicOpsAndTheirFlagReset : Prop :=
  ∀ (x y : Reg),
    decodeWord (0x8#4 ++ x ++ y ++ 0x0#4) = .ok (.ldReg x y) ∧
    decodeWord (0x8#4 ++ x ++ y ++ 0x1#4) = .ok (.orReg x y) ∧
    decodeWord (0x8#4 ++ x ++ y ++ 0x2#4) = .ok (.andReg x y) ∧
    decodeWord (0x8#4 ++ x ++ y ++ 0x3#4) = .ok (.xorReg x y) ∧
    ∀ (s : State) (i : Instr) (result : Byte),
      (i, result) ∈ [(.ldReg x y, s.getV y), (.orReg x y, s.getV x ||| s.getV y),
        (.andReg x y, s.getV x &&& s.getV y), (.xorReg x y, s.getV x ^^^ s.getV y)] →
      ∃ t, exec i s = .next t ∧ t.outcome = some .advanced ∧
        (∀ r, t.getV r =
          if r = VF ∧ s.cfg.quirks.logicOpsResetVf = true then 0#8 else if r = x then result else s.getV r) ∧
        OnlyWrites [.regs, .outcome] s t

/-- 8XY4 (41_alu.md R53): the sum modulo 256, and `VF`, written last, is 1 iff the wrapped sum is less than the old `Vx`, that is,
iff the exact sum is at least 256. -/
def Obligations.AddRegSetsTheCarry : Prop :=
  ∀ (x y : Reg),
    decodeWord (0x8#4 ++ x ++ y ++ 0x4#4) = .ok (.addReg x y) ∧
    ∀ s : State,
      let a := (s.getV x).toNat
      let b := (s.getV y).toNat
      ((a + b) % 256 < a ↔ 256 ≤ a + b) ∧
      ∃ t, exec (.addReg x y) s = .next t ∧ t.outcome = some .advanced ∧
        (∀ r, (t.getV r).toNat =
          if r = VF then (if 256 ≤ a + b then 1 else 0) else if r = x then (a + b) % 256 else (s.getV r).toNat) ∧
        OnlyWrites [.regs, .outcome] s t

/-- 8XY5 and 8XY7 (41_alu.md R54, R56): the difference modulo 256 in either order, and `VF`, written last, is 1 iff the minuend is
at least the subtrahend. -/
def Obligations.SubtractionsSetNoBorrow : Prop :=
  ∀ (x y : Reg),
    decodeWord (0x8#4 ++ x ++ y ++ 0x5#4) = .ok (.subReg x y) ∧
    decodeWord (0x8#4 ++ x ++ y ++ 0x7#4) = .ok (.subn x y) ∧
    ∀ s : State,
      let a := (s.getV x).toNat
      let b := (s.getV y).toNat
      (∃ t, exec (.subReg x y) s = .next t ∧ t.outcome = some .advanced ∧
        (∀ r, (t.getV r).toNat =
          if r = VF then (if b ≤ a then 1 else 0) else if r = x then (a + 256 - b) % 256 else (s.getV r).toNat) ∧
        OnlyWrites [.regs, .outcome] s t) ∧
      (∃ t, exec (.subn x y) s = .next t ∧ t.outcome = some .advanced ∧
        (∀ r, (t.getV r).toNat =
          if r = VF then (if a ≤ b then 1 else 0) else if r = x then (b + 256 - a) % 256 else (s.getV r).toNat) ∧
        OnlyWrites [.regs, .outcome] s t)

/-- 8XYE (41_alu.md R57): the source doubled modulo 256, and `VF`, written last, is its old bit 7. -/
def Obligations.ShlShiftsOutBit7 : Prop :=
  ∀ (x y : Reg),
    decodeWord (0x8#4 ++ x ++ y ++ 0xE#4) = .ok (.shl x y) ∧
    ∀ s : State,
      let b := (if s.cfg.quirks.shiftIgnoreVy then s.getV x else s.getV y).toNat
      ∃ t, exec (.shl x y) s = .next t ∧ t.outcome = some .advanced ∧
        (∀ r, (t.getV r).toNat =
          if r = VF then b / 128 else if r = x then b * 2 % 256 else (s.getV r).toNat) ∧
        OnlyWrites [.regs, .outcome] s t

/-- 8XY6: the source halved, a logical shift, and `VF`, written last, is its old bit 0 (41_alu.md, SHR; decision D2). -/
def Obligations.ShrShiftsOutBit0 : Prop :=
  ∀ (x y : Reg),
    decodeWord (0x8#4 ++ x ++ y ++ 0x6#4) = .ok (.shr x y) ∧
    ∀ s : State,
      let b := (if s.cfg.quirks.shiftIgnoreVy then s.getV x else s.getV y).toNat
      ∃ t, exec (.shr x y) s = .next t ∧ t.outcome = some .advanced ∧
        (∀ r, (t.getV r).toNat =
          if r = VF then b % 2 else if r = x then b / 2 else (s.getV r).toNat) ∧
        OnlyWrites [.regs, .outcome] s t

/-- CXNN: one draw is consumed and `Vx` becomes the drawn byte under the mask, for whatever byte the source supplies; bits outside
the mask are 0 (41_alu.md, RND; decision D22; log entry 2). -/
def Obligations.RndMasksOneDraw : Prop :=
  ∀ (x : Reg) (nn : Byte),
    decodeWord (0xC#4 ++ x ++ nn) = .ok (.rnd x nn) ∧
    ∀ s : State,
      (∃ t, exec (.rnd x nn) s = .next t ∧ t.outcome = some .advanced ∧ t.randDraws = s.randDraws + 1 ∧
        (∀ r, t.getV r = if r = x then Config.randByte s.randDraws &&& nn else s.getV r) ∧
        OnlyWrites [.regs, .randDraws, .outcome] s t) ∧
      (∀ drawn : Byte, ∃ t, rndWith drawn x nn s = .next t ∧
        ∀ bit, nn.getLsbD bit = false → (t.getV x).getLsbD bit = false)

/-! ## Index register, font, BCD, block load and store -/

/-- ANNN: `I` becomes `nnn`, unreduced (42_index_memory.md, LD I; decision D7). -/
def Obligations.LdISetsTheIndex : Prop :=
  ∀ (nnn : Addr12),
    decodeWord (0xA#4 ++ nnn) = .ok (.ldI nnn) ∧
    ∀ s : State, ∃ t, exec (.ldI nnn) s = .next t ∧ t.outcome = some .advanced ∧ t.i.toNat = nnn.toNat ∧
      OnlyWrites [.index, .outcome] s t

/-- FX1E: a sum of at least `MEM_SIZE` wraps modulo `MEM_SIZE` and sets `VF` to 1, no event is logged; a smaller sum leaves `VF`
unchanged (42_index_memory.md, ADD I; decision D8). -/
def Obligations.AddIWrapsAndSignals : Prop :=
  ∀ (x : Reg),
    decodeWord (0xF#4 ++ x ++ 0x1E#8) = .ok (.addI x) ∧
    ∀ s : State, validConfig s.cfg 0 = true →
      let sum := s.i.toNat + (s.getV x).toNat
      ∃ t, exec (.addI x) s = .next t ∧ t.outcome = some .advanced ∧
        t.i.toNat = (if s.cfg.memSize ≤ sum then sum % s.cfg.memSize else sum) ∧
        (∀ r, t.getV r = if r = VF ∧ s.cfg.memSize ≤ sum then 1#8 else s.getV r) ∧
        OnlyWrites [.index, .regs, .outcome] s t

/-- FX29 (42_index_memory.md R61): `I` becomes the address of the glyph of the low nibble of `Vx`, inside the font table. -/
def Obligations.LdFPointsAtTheGlyph : Prop :=
  ∀ (x : Reg),
    decodeWord (0xF#4 ++ x ++ 0x29#8) = .ok (.ldF x) ∧
    ∀ s : State, validConfig s.cfg 0 = true →
      ∃ t, exec (.ldF x) s = .next t ∧ t.outcome = some .advanced ∧
        t.i.toNat = s.cfg.fontStart + 5 * ((s.getV x).toNat % 16) ∧
        s.cfg.fontStart ≤ t.i.toNat ∧ t.i.toNat + 5 ≤ s.cfg.fontStart + 80 ∧
        OnlyWrites [.index, .outcome] s t

/-- FX33 (42_index_memory.md R62): the hundreds, tens and units digits of `Vx` at `I`, `I + 1`, `I + 2`, each address reduced
modulo `MEM_SIZE`; no other byte, register or `I` changes. -/
def Obligations.LdBStoresTheDigits : Prop :=
  ∀ (x : Reg),
    decodeWord (0xF#4 ++ x ++ 0x33#8) = .ok (.ldB x) ∧
    ∀ s : State, validConfig s.cfg 0 = true →
      ∃ t, exec (.ldB x) s = .next t ∧ t.outcome = some .advanced ∧
        (t.readMem s.i.toNat).toNat = (s.getV x).toNat / 100 ∧
        (t.readMem (s.i.toNat + 1)).toNat = (s.getV x).toNat / 10 % 10 ∧
        (t.readMem (s.i.toNat + 2)).toNat = (s.getV x).toNat % 10 ∧
        (∀ a, (∀ k, k < 3 → s.dataAddress a ≠ s.dataAddress (s.i.toNat + k)) → t.readMem a = s.readMem a) ∧
        OnlyWrites [.mem, .outcome] s t

/-- FX55: `V0` to `Vx` stand at `I` to `I + x`, each address reduced modulo `MEM_SIZE`, no other byte changes, and `I` advances
only under the quirk, without a flag (42_index_memory.md, block store; decisions D5, D9). -/
def Obligations.BlockStoreWritesTheRegisters : Prop :=
  ∀ (x : Reg),
    decodeWord (0xF#4 ++ x ++ 0x55#8) = .ok (.ldMemVx x) ∧
    ∀ s : State, validConfig s.cfg 0 = true →
      ∃ t, exec (.ldMemVx x) s = .next t ∧ t.outcome = some .advanced ∧
        (∀ k : Reg, k ≤ x → t.readMem (s.i.toNat + k.toNat) = s.getV k) ∧
        (∀ a, (∀ k, k ≤ x.toNat → s.dataAddress a ≠ s.dataAddress (s.i.toNat + k)) → t.readMem a = s.readMem a) ∧
        t.i.toNat = (if s.cfg.quirks.storeLoadMemUseI then (s.i.toNat + x.toNat + 1) % s.cfg.memSize else s.i.toNat) ∧
        OnlyWrites [.mem, .index, .outcome] s t

/-- FX65 (42_index_memory.md R64): `V0` to `Vx` become the bytes at `I` to `I + x`, each address reduced modulo `MEM_SIZE`, and `I`
advances only under the quirk. -/
def Obligations.BlockLoadReadsTheRegisters : Prop :=
  ∀ (x : Reg),
    decodeWord (0xF#4 ++ x ++ 0x65#8) = .ok (.ldVxMem x) ∧
    ∀ s : State, validConfig s.cfg 0 = true →
      ∃ t, exec (.ldVxMem x) s = .next t ∧ t.outcome = some .advanced ∧
        (∀ r : Reg, t.getV r = if r ≤ x then s.readMem ((s.i.toNat + r.toNat) % s.cfg.memSize) else s.getV r) ∧
        t.i.toNat = (if s.cfg.quirks.storeLoadMemUseI then (s.i.toNat + x.toNat + 1) % s.cfg.memSize else s.i.toNat) ∧
        OnlyWrites [.regs, .index, .outcome] s t

/-- A block load after a block store at the same `I` gives the stored registers back, from any state with that memory
(42_index_memory.md, block store and block load; decision D9). -/
def Obligations.BlockLoadAfterStoreRestores : Prop :=
  ∀ (x : Reg) (s : State), validConfig s.cfg 0 = true →
    ∃ t, exec (.ldMemVx x) s = .next t ∧
      ∀ u : State, u.cfg = t.cfg → u.mem = t.mem → u.i = s.i →
        ∃ w, exec (.ldVxMem x) u = .next w ∧ ∀ k : Reg, k ≤ x → w.getV k = s.getV k

/-- FX33 and then FX65 with `x = 2` puts the decimal digits of the register into `V0`, `V1`, `V2`
(42_index_memory.md, BCD store and block load). -/
def Obligations.BcdDigitsLoadBack : Prop :=
  ∀ (x : Reg) (s : State), validConfig s.cfg 0 = true →
    ∃ t u, exec (.ldB x) s = .next t ∧ exec (.ldVxMem 2#4) t = .next u ∧
      (u.getV 0#4).toNat * 100 + (u.getV 1#4).toNat * 10 + (u.getV 2#4).toNat = (s.getV x).toNat ∧
      (u.getV 0#4).toNat ≤ 2 ∧ (u.getV 1#4).toNat ≤ 9 ∧ (u.getV 2#4).toNat ≤ 9

/-- A word that FX55 or FX33 stores is what every later fetch at its address reads, with no fence: any two neighbouring bytes of
the store, their addresses reduced modulo `MEM_SIZE`, wherever two bytes can be fetched, in any later state with that memory
(20_memory.md, ordering; 70_reset_and_hazards.md, hazards; decisions D5, D27). -/
def Obligations.StoredWordIsFetched : Prop :=
  ∀ (x : Reg) (s : State), validConfig s.cfg 0 = true →
    (∃ t, exec (.ldMemVx x) s = .next t ∧
      ∀ (u : State) (k : Reg), u.cfg = t.cfg → u.mem = t.mem → k < x →
        u.pc.toNat = (s.i.toNat + k.toNat) % s.cfg.memSize → u.pc.toNat + 1 < s.cfg.memSize →
        u.fetch = [s.getV k, s.getV (k + 1#4)]) ∧
    (∃ t, exec (.ldB x) s = .next t ∧
      ∀ u : State, u.cfg = t.cfg → u.mem = t.mem → u.pc.toNat + 1 < s.cfg.memSize →
        (u.pc.toNat = s.i.toNat % s.cfg.memSize →
          u.fetch.map BitVec.toNat = [(s.getV x).toNat / 100, (s.getV x).toNat / 10 % 10]) ∧
        (u.pc.toNat = (s.i.toNat + 1) % s.cfg.memSize →
          u.fetch.map BitVec.toNat = [(s.getV x).toNat / 10 % 10, (s.getV x).toNat % 10]))

/-! ## Display -/

/-- 00E0: every pixel off and `dirty` set; neither `VF` nor the draw gate is read or written (43_display.md, CLS; decisions D12,
D13). -/
def Obligations.ClsClearsTheScreen : Prop :=
  decode [0x00#8, 0xE0#8] = .ok .cls ∧
  ∀ s : State, ∃ t, exec .cls s = .next t ∧ t.outcome = some .advanced ∧ t.dirty = true ∧
    t.fb.length = s.cfg.width * s.cfg.height ∧ (∀ x y, pixel t.cfg t.fb x y = false) ∧
    OnlyWrites [.fb, .dirty, .outcome] s t

/-- DXYN with the draw gate closed does not execute: only `pc` is rewound (43_display.md, the display-wait gate; decision D12). -/
def Obligations.GatedDrawIsRepeated : Prop :=
  ∀ (x y : Reg) (n : Nibble) (s : State), s.cfg.quirks.displayWait = true → s.drewThisTick = true →
    exec (.drw x y n) s = .next { s with pc := s.pc - 2#16, outcome := some .repeated }

/-- DXYN with the gate open flips exactly the pixels inside the screen that the sprite covers, start coordinates wrapped and the
sprite clipped; `VF` is 1 iff one of them was on; `dirty` and the draw gate are set (43_display.md, draw sprite; decisions D5, D12,
D13, D17). -/
def Obligations.DrawFlipsTheCoveredPixels : Prop :=
  ∀ (x y : Reg) (n : Nibble),
    decodeWord (0xD#4 ++ x ++ y ++ n) = .ok (.drw x y n) ∧
    ∀ s : State, s.Inv → (s.cfg.quirks.displayWait = false ∨ s.drewThisTick = false) →
      let covers := spriteCovers s ((s.getV x).toNat % s.cfg.width) ((s.getV y).toNat % s.cfg.height) n.toNat
      ∃ t, exec (.drw x y n) s = .next t ∧ t.outcome = some .advanced ∧ t.dirty = true ∧ t.drewThisTick = true ∧
        t.fb.length = s.fb.length ∧
        (∀ px py, px < s.cfg.width → py < s.cfg.height →
          pixel t.cfg t.fb px py = (pixel s.cfg s.fb px py ^^ covers px py)) ∧
        (t.getV VF = 1#8 ∨ t.getV VF = 0#8) ∧
        (t.getV VF = 1#8 ↔ ∃ px py, px < s.cfg.width ∧ py < s.cfg.height ∧
          pixel s.cfg s.fb px py = true ∧ covers px py = true) ∧
        (∀ r, r ≠ VF → t.getV r = s.getV r) ∧
        OnlyWrites [.regs, .fb, .dirty, .drewThisTick, .outcome] s t

/-- The double-draw law with its conditions: the same sprite drawn again in the next tick restores the framebuffer, and if its
covered pixels were off and at least one lies inside the screen the second draw collides (90_conflicts.md C5; decisions D12,
D17). -/
def Obligations.DrawingTwiceRestoresTheScreen : Prop :=
  ∀ (x y : Reg) (n : Nibble) (s : State), s.Inv → x ≠ VF → y ≠ VF →
    (s.cfg.quirks.displayWait = false ∨ s.drewThisTick = false) →
    let covers := spriteCovers s ((s.getV x).toNat % s.cfg.width) ((s.getV y).toNat % s.cfg.height) n.toNat
    ∃ t u, exec (.drw x y n) s = .next t ∧ exec (.drw x y n) (tickBoundary t) = .next u ∧ u.fb = s.fb ∧
      ((∀ px py, px < s.cfg.width → py < s.cfg.height → covers px py = true → pixel s.cfg s.fb px py = false) →
        (∃ px py, px < s.cfg.width ∧ py < s.cfg.height ∧ covers px py = true) →
        t.getV VF = 0#8 ∧ u.getV VF = 1#8)

/-- However many steps run, a key wait with no key held and a draw with the gate closed stay where they are and change nothing but
the outcome (70_reset_and_hazards.md, hazards; 43_display.md, the gate; decision D12). -/
def Obligations.WaitsHoldUntilTheHostActs : Prop :=
  ∀ (s : State) (n : Nat),
    (∀ x, decode s.fetch = .ok (.ldVxK x) → (∀ k, s.getKey k = false) →
      Sys2Proof.core.run (n + 1) s = .next { s with outcome := some .repeated }) ∧
    (∀ x y h, decode s.fetch = .ok (.drw x y h) → s.cfg.quirks.displayWait = true → s.drewThisTick = true →
      Sys2Proof.core.run (n + 1) s = .next { s with outcome := some .repeated })

/-! ## Keypad and timers -/

/-- EX9E and EXA1 test the latched level of the key that the low nibble of `Vx` names and skip one word or none
(44_keypad_timers.md, SKP and SKNP; decision D11). -/
def Obligations.KeySkipsTestTheLatch : Prop :=
  ∀ (x : Reg),
    decodeWord (0xE#4 ++ x ++ 0x9E#8) = .ok (.skp x) ∧
    decodeWord (0xE#4 ++ x ++ 0xA1#8) = .ok (.sknp x) ∧
    ∀ (s : State) (k : Nibble), k.toNat = (s.getV x).toNat % 16 →
      exec (.skp x) s =
        .next { s with pc := if s.getKey k = true then s.pc + 2#16 else s.pc, outcome := some .advanced } ∧
      exec (.sknp x) s =
        .next { s with pc := if s.getKey k = true then s.pc else s.pc + 2#16, outcome := some .advanced }

/-- FX0A (44_keypad_timers.md R73): with a key held, `Vx` becomes the least held index; with none, the step is repeated, so `pc`
stays at the instruction, and while it waits the timers count down at tick boundaries and nothing else changes. -/
def Obligations.KeyWaitTakesTheLeastKey : Prop :=
  ∀ (x : Reg),
    decodeWord (0xF#4 ++ x ++ 0x0A#8) = .ok (.ldVxK x) ∧
    (∀ (s : State) (k : Nibble), s.getKey k = true → (∀ j, j < k → s.getKey j = false) →
      ∃ t, exec (.ldVxK x) s = .next t ∧ t.outcome = some .advanced ∧
        (∀ r, (t.getV r).toNat = if r = x then k.toNat else (s.getV r).toNat) ∧ OnlyWrites [.regs, .outcome] s t) ∧
    (∀ s : State, (∀ k, s.getKey k = false) →
      exec (.ldVxK x) s = .next { s with pc := s.pc - 2#16, outcome := some .repeated }) ∧
    (∀ (s : State) (ticks : Nat), decode s.fetch = .ok (.ldVxK x) → (∀ k, s.getKey k = false) →
      let waiting := tickBoundary^[ticks] s
      step waiting = .next { waiting with outcome := some .repeated } ∧ waiting.pc = s.pc ∧
        waiting.dt.toNat = s.dt.toNat - ticks ∧ waiting.st.toNat = s.st.toNat - ticks)

/-- FX07, FX15, FX18 (44_keypad_timers.md R74 to R76): the timer reads and writes; a value written to either timer is the timer's
until the next tick boundary, which makes the first decrement, and stands `n` lower after `n` boundaries, 0 once they reach it
(10_state.md R10, 60_exceptions.md R88; decision D18). -/
def Obligations.TimerAccess : Prop :=
  ∀ (x : Reg),
    decodeWord (0xF#4 ++ x ++ 0x07#8) = .ok (.ldVxDt x) ∧
    decodeWord (0xF#4 ++ x ++ 0x15#8) = .ok (.ldDtVx x) ∧
    decodeWord (0xF#4 ++ x ++ 0x18#8) = .ok (.ldStVx x) ∧
    ∀ s : State,
      (∃ t, exec (.ldVxDt x) s = .next t ∧ t.outcome = some .advanced ∧
        (∀ r, t.getV r = if r = x then s.dt else s.getV r) ∧ OnlyWrites [.regs, .outcome] s t) ∧
      (∃ t, exec (.ldDtVx x) s = .next t ∧ t.outcome = some .advanced ∧ t.dt = s.getV x ∧
        OnlyWrites [.dt, .outcome] s t ∧ ∀ n, (tickBoundary^[n] t).dt.toNat = (s.getV x).toNat - n) ∧
      (∃ t, exec (.ldStVx x) s = .next t ∧ t.outcome = some .advanced ∧ t.st = s.getV x ∧
        OnlyWrites [.st, .outcome] s t ∧ ∀ n, (tickBoundary^[n] t).st.toNat = (s.getV x).toNat - n)

/-! ## The host's operations and protocol -/

/-- Any number of tick boundaries counts both timers down toward zero and never below, opens the draw gate and changes nothing
else (60_exceptions.md, timers; decisions D12, D18). -/
def Obligations.TickBoundariesCountDown : Prop :=
  ∀ (n : Nat) (s : State),
    (tickBoundary^[n] s).dt.toNat = s.dt.toNat - n ∧ (tickBoundary^[n] s).st.toNat = s.st.toNat - n ∧
    (0 < n → (tickBoundary^[n] s).drewThisTick = false) ∧
    OnlyWrites [.dt, .st, .drewThisTick] s (tickBoundary^[n] s)

/-- The read-out after a batch (60_exceptions.md R92): if `dirty`, one snapshot of the framebuffer is pushed and `dirty` cleared;
else nothing is pushed; the framebuffer is not changed. -/
def Obligations.ReadOutPushesOnceIfDirty : Prop :=
  ∀ s : State,
    (s.dirty = true → (readOut s).1 = some s.fb ∧ (readOut s).2 = { s with dirty := false }) ∧
    (s.dirty = false → readOut s = (none, s)) ∧
    (readOut s).2.fb = s.fb ∧
    (∀ (pending : List (List InputEvent)) (t b : State) (pushed : Option (List Bool)),
      batch s.cfg.cyclesPerTick pending s = .running b → tick pending s = .ticked pushed t →
      pushed = if b.dirty then some b.fb else none)

/-- Draining applies every pending key event in arrival order: each key ends at the level of the last event about it, and nothing
but the latch changes (60_exceptions.md, keypad; decision D32). -/
def Obligations.DrainAppliesEventsInOrder : Prop :=
  ∀ (events : List InputEvent) (s : State), .quit ∉ events →
    ∃ t, drain events s = .running t ∧ OnlyWrites [.keys] s t ∧
      ∀ k, t.getKey k = events.foldl
        (fun level e => if e = .keyDown k then true else if e = .keyUp k then false else level) (s.getKey k)

/-- A `Quit` among the events before a step, the first or a later one, ends the batch and the run before that step's fetch: the
steps before it have run, no other step runs, and since the last of them nothing but the latch can have changed
(60_exceptions.md, host protocol; decision D28; log entry 14). -/
def Obligations.QuitEndsTheRunBeforeTheFetch : Prop :=
  ∀ (before : List (List InputEvent)) (events : List InputEvent) (later : List (List InputEvent)) (n : Nat) (s : State),
    (∀ e ∈ before, .quit ∉ e) → .quit ∈ events →
    ∃ u t, batch before.length before s = .running u ∧ drain events u = .ended t ∧
      batch (before.length + n + 1) (before ++ events :: later) s = .ended t ∧ OnlyWrites [.keys] u t

/-- Phase (a) drains the pending events before each step and performs the step; where no event list that precedes a step holds a
`Quit`, the batch runs exactly its number of steps, and with no input it is just those steps. A tick is `CYCLES_PER_TICK` of them,
then the read-out, then the tick boundary (60_exceptions.md, host protocol; decision D18). -/
def Obligations.TickIsABatchThenTheBoundary : Prop :=
  (∀ (n : Nat) (events : List InputEvent) (later : List (List InputEvent)) (s s' s'' : State),
    drain events s = .running s' → step s' = .next s'' → batch (n + 1) (events :: later) s = batch n later s'') ∧
  (∀ (n : Nat) (pending : List (List InputEvent)) (s : State), (∀ e ∈ pending.take n, .quit ∉ e) →
    ∃ t, batch n pending s = .running t) ∧
  (∀ (n : Nat) (s : State), ∃ t, Sys2Proof.core.run n s = .next t ∧ batch n [] s = .running t) ∧
  (∀ (pending : List (List InputEvent)) (s b : State), batch s.cfg.cyclesPerTick pending s = .running b →
    tick pending s = .ticked (if b.dirty then some b.fb else none) (tickBoundary { b with dirty := false }))

/-- A run constructs the core and repeats the tick from the state the last one left, collecting the images pushed, at most one a
tick, until a `Quit`; it ends exactly when the events before some step of some tick hold a `Quit`, and where construction fails
there is no run (60_exceptions.md, host protocol; decisions D18, D28; the input as lists is log entry 6). -/
def Obligations.RunRepeatsTheTickUntilQuit : Prop :=
  (∀ (cfg : Config) (rom : List Byte) (input : List (List (List InputEvent))),
    (construct cfg rom = none → hostRun cfg rom input = none) ∧
    ∀ s, construct cfg rom = some s → hostRun cfg rom input = some (runTicks input s) ∧
      ((∃ t, (runTicks input s).last = .ended t) ↔
        ∃ pending ∈ input, ∃ events ∈ pending.take cfg.cyclesPerTick, .quit ∈ events)) ∧
  (∀ (input : List (List (List InputEvent))) (s : State), (runTicks input s).images.length ≤ input.length) ∧
  (∀ (input : List (List (List InputEvent))) (pending : List (List InputEvent)) (s u : State),
    (runTicks input s).last = .running u →
    (∀ t, tick pending u = .ended t →
      runTicks (input ++ [pending]) s = { images := (runTicks input s).images, last := .ended t }) ∧
    (∀ pushed t, tick pending u = .ticked pushed t →
      runTicks (input ++ [pending]) s =
        { images := (runTicks input s).images ++ pushed.toList, last := .running t })) ∧
  (∀ (input later : List (List (List InputEvent))) (s u : State),
    (runTicks input s).last = .ended u → runTicks (input ++ later) s = runTicks input s)

/-- Wherever a run from construction stands, after its last complete tick or at the `Quit` that ended it, the invariant holds and
the configuration is the one the core was constructed with (60_exceptions.md, host protocol; 00_scope.md, the configuration record;
decisions D15, D18, D28). -/
def Obligations.RunKeepsTheInvariant : Prop :=
  ∀ (cfg : Config) (rom : List Byte) (input : List (List (List InputEvent))) (r : RunResult),
    hostRun cfg rom input = some r → r.last.state.Inv ∧ r.last.state.cfg = cfg
end

