-- ==== Sys2Proof/Laws/Decode.lean ====
section
/-! SUPPORT. Instruction words as numbers: what a format's word is, what each field of a word is, and what a word of each format
decodes as. -/

namespace Sys2Proof

theorem toNat_append_eq {m n : Nat} (a : BitVec m) (b : BitVec n) : (a ++ b).toNat = a.toNat * 2 ^ n + b.toNat := by
  rw [BitVec.toNat_append, ← Nat.shiftLeft_add_eq_or_of_lt b.isLt, Nat.shiftLeft_eq]

theorem toNat_formatA (f : Nibble) (nnn : Addr12) : (formatA f nnn).toNat = f.toNat * 4096 + nnn.toNat :=
  toNat_append_eq f nnn

theorem toNat_formatXK (f : Nibble) (x : Reg) (nn : Byte) :
    (formatXK f x nn).toNat = f.toNat * 4096 + x.toNat * 256 + nn.toNat := by
  have h1 : (formatXK f x nn).toNat = (f ++ x).toNat * 256 + nn.toNat := toNat_append_eq (f ++ x) nn
  rw [h1, toNat_append_eq f x]
  omega

theorem toNat_formatXYN (f : Nibble) (x y : Reg) (n : Nibble) :
    (formatXYN f x y n).toNat = f.toNat * 4096 + x.toNat * 256 + y.toNat * 16 + n.toNat := by
  have h1 : (formatXYN f x y n).toNat = (f ++ x ++ y).toNat * 16 + n.toNat := toNat_append_eq (f ++ x ++ y) n
  have h2 : (f ++ x ++ y).toNat = (f ++ x).toNat * 16 + y.toNat := toNat_append_eq (f ++ x) y
  rw [h1, h2, toNat_append_eq f x]
  omega

theorem toNat_wordOfBytes (byte0 byte1 : Byte) : (wordOfBytes byte0 byte1).toNat = byte0.toNat * 256 + byte1.toNat :=
  toNat_append_eq byte0 byte1

theorem toNat_fieldF (w : Word) : (fieldF w).toNat = w.toNat / 4096 := by
  have := w.isLt
  simp [fieldF, Nat.shiftRight_eq_div_pow]
  omega

theorem toNat_fieldX (w : Word) : (fieldX w).toNat = w.toNat / 256 % 16 := by
  simp [fieldX, Nat.shiftRight_eq_div_pow]

theorem toNat_fieldY (w : Word) : (fieldY w).toNat = w.toNat / 16 % 16 := by
  simp [fieldY, Nat.shiftRight_eq_div_pow]

theorem toNat_fieldN (w : Word) : (fieldN w).toNat = w.toNat % 16 := by
  simp [fieldN]

theorem toNat_fieldNN (w : Word) : (fieldNN w).toNat = w.toNat % 256 := by
  simp [fieldNN]

theorem toNat_fieldNNN (w : Word) : (fieldNNN w).toNat = w.toNat % 4096 := by
  simp [fieldNNN]

/-- The two fields of a format-A word, and the `x` that overlaps its address. -/
theorem fields_formatA (f : Nibble) (nnn : Addr12) :
    fieldF (formatA f nnn) = f ∧ fieldNNN (formatA f nnn) = nnn ∧ fieldX (formatA f nnn) = nnn.extractLsb' 8 4 := by
  have hf := f.isLt
  have hn := nnn.isLt
  refine ⟨BitVec.eq_of_toNat_eq ?_, BitVec.eq_of_toNat_eq ?_, BitVec.eq_of_toNat_eq ?_⟩
  · rw [toNat_fieldF, toNat_formatA]
    omega
  · rw [toNat_fieldNNN, toNat_formatA]
    omega
  · rw [toNat_fieldX, toNat_formatA]
    simp [Nat.shiftRight_eq_div_pow]
    omega

/-- The three fields of a format-XK word. -/
theorem fields_formatXK (f : Nibble) (x : Reg) (nn : Byte) :
    fieldF (formatXK f x nn) = f ∧ fieldX (formatXK f x nn) = x ∧ fieldNN (formatXK f x nn) = nn := by
  have hf := f.isLt
  have hx := x.isLt
  have hn := nn.isLt
  refine ⟨BitVec.eq_of_toNat_eq ?_, BitVec.eq_of_toNat_eq ?_, BitVec.eq_of_toNat_eq ?_⟩
  · rw [toNat_fieldF, toNat_formatXK]
    omega
  · rw [toNat_fieldX, toNat_formatXK]
    omega
  · rw [toNat_fieldNN, toNat_formatXK]
    omega

/-- The four fields of a format-XYN word. -/
theorem fields_formatXYN (f : Nibble) (x y : Reg) (n : Nibble) :
    fieldF (formatXYN f x y n) = f ∧ fieldX (formatXYN f x y n) = x ∧ fieldY (formatXYN f x y n) = y ∧
      fieldN (formatXYN f x y n) = n := by
  have hf := f.isLt
  have hx := x.isLt
  have hy := y.isLt
  have hn := n.isLt
  refine ⟨BitVec.eq_of_toNat_eq ?_, BitVec.eq_of_toNat_eq ?_, BitVec.eq_of_toNat_eq ?_, BitVec.eq_of_toNat_eq ?_⟩
  · rw [toNat_fieldF, toNat_formatXYN]
    omega
  · rw [toNat_fieldX, toNat_formatXYN]
    omega
  · rw [toNat_fieldY, toNat_formatXYN]
    omega
  · rw [toNat_fieldN, toNat_formatXYN]
    omega

/-- A word is the format-A word of its fields. -/
theorem formatA_fields (w : Word) : formatA (fieldF w) (fieldNNN w) = w := by
  apply BitVec.eq_of_toNat_eq
  rw [toNat_formatA, toNat_fieldF, toNat_fieldNNN]
  omega

/-- A word is the format-XK word of its fields. -/
theorem formatXK_fields (w : Word) : formatXK (fieldF w) (fieldX w) (fieldNN w) = w := by
  apply BitVec.eq_of_toNat_eq
  rw [toNat_formatXK, toNat_fieldF, toNat_fieldX, toNat_fieldNN]
  omega

/-- A word is the format-XYN word of its fields. -/
theorem formatXYN_fields (w : Word) : formatXYN (fieldF w) (fieldX w) (fieldY w) (fieldN w) = w := by
  apply BitVec.eq_of_toNat_eq
  rw [toNat_formatXYN, toNat_fieldF, toNat_fieldX, toNat_fieldY, toNat_fieldN]
  omega

/-- The two bytes of a word, read back as a word, are the word. -/
theorem wordOfBytes_bytes (w : Word) : wordOfBytes (w.extractLsb' 8 8) (w.extractLsb' 0 8) = w := by
  have := w.isLt
  apply BitVec.eq_of_toNat_eq
  rw [toNat_wordOfBytes]
  simp [Nat.shiftRight_eq_div_pow]
  omega

/-- A word made of two bytes has those bytes. -/
theorem bytesOfWord_wordOfBytes (byte0 byte1 : Byte) : bytesOfWord (wordOfBytes byte0 byte1) = [byte0, byte1] := by
  have h0 := byte0.isLt
  have h1 := byte1.isLt
  simp only [bytesOfWord, List.cons.injEq, and_true]
  refine ⟨BitVec.eq_of_toNat_eq ?_, BitVec.eq_of_toNat_eq ?_⟩ <;>
    simp [toNat_wordOfBytes, Nat.shiftRight_eq_div_pow] <;> omega

/-- Decoding the bytes of a word is decoding the word. -/
theorem decode_bytesOfWord (w : Word) : decode (bytesOfWord w) = decodeWord w := by
  rw [bytesOfWord, decode, wordOfBytes_bytes]

end Sys2Proof
end

