-- ==== Sys2Proof/Laws/State.lean ====
section
/-! SUPPORT. One lemma per field per named update of the state, so that no later proof unfolds a record update. -/

namespace Sys2Proof.Machine

variable (s : State)

/-! `setV` writes `v` alone. -/

@[simp] theorem State.setV_cfg (r : Reg) (b : Byte) : (s.setV r b).cfg = s.cfg := rfl
@[simp] theorem State.setV_v (r : Reg) (b : Byte) : (s.setV r b).v = s.v.set r.toNat b r.isLt := rfl
@[simp] theorem State.setV_i (r : Reg) (b : Byte) : (s.setV r b).i = s.i := rfl
@[simp] theorem State.setV_pc (r : Reg) (b : Byte) : (s.setV r b).pc = s.pc := rfl
@[simp] theorem State.setV_dt (r : Reg) (b : Byte) : (s.setV r b).dt = s.dt := rfl
@[simp] theorem State.setV_st (r : Reg) (b : Byte) : (s.setV r b).st = s.st := rfl
@[simp] theorem State.setV_keys (r : Reg) (b : Byte) : (s.setV r b).keys = s.keys := rfl
@[simp] theorem State.setV_fb (r : Reg) (b : Byte) : (s.setV r b).fb = s.fb := rfl
@[simp] theorem State.setV_mem (r : Reg) (b : Byte) : (s.setV r b).mem = s.mem := rfl
@[simp] theorem State.setV_stack (r : Reg) (b : Byte) : (s.setV r b).stack = s.stack := rfl
@[simp] theorem State.setV_dirty (r : Reg) (b : Byte) : (s.setV r b).dirty = s.dirty := rfl
@[simp] theorem State.setV_drewThisTick (r : Reg) (b : Byte) : (s.setV r b).drewThisTick = s.drewThisTick := rfl
@[simp] theorem State.setV_outcome (r : Reg) (b : Byte) : (s.setV r b).outcome = s.outcome := rfl
@[simp] theorem State.setV_log (r : Reg) (b : Byte) : (s.setV r b).log = s.log := rfl
@[simp] theorem State.setV_randDraws (r : Reg) (b : Byte) : (s.setV r b).randDraws = s.randDraws := rfl

/-! `setRegs` writes `v` alone. -/

@[simp] theorem State.setRegs_cfg (w : Vector Byte 16) : (s.setRegs w).cfg = s.cfg := rfl
@[simp] theorem State.setRegs_v (w : Vector Byte 16) : (s.setRegs w).v = w := rfl
@[simp] theorem State.setRegs_i (w : Vector Byte 16) : (s.setRegs w).i = s.i := rfl
@[simp] theorem State.setRegs_pc (w : Vector Byte 16) : (s.setRegs w).pc = s.pc := rfl
@[simp] theorem State.setRegs_dt (w : Vector Byte 16) : (s.setRegs w).dt = s.dt := rfl
@[simp] theorem State.setRegs_st (w : Vector Byte 16) : (s.setRegs w).st = s.st := rfl
@[simp] theorem State.setRegs_keys (w : Vector Byte 16) : (s.setRegs w).keys = s.keys := rfl
@[simp] theorem State.setRegs_fb (w : Vector Byte 16) : (s.setRegs w).fb = s.fb := rfl
@[simp] theorem State.setRegs_mem (w : Vector Byte 16) : (s.setRegs w).mem = s.mem := rfl
@[simp] theorem State.setRegs_stack (w : Vector Byte 16) : (s.setRegs w).stack = s.stack := rfl
@[simp] theorem State.setRegs_dirty (w : Vector Byte 16) : (s.setRegs w).dirty = s.dirty := rfl
@[simp] theorem State.setRegs_drewThisTick (w : Vector Byte 16) : (s.setRegs w).drewThisTick = s.drewThisTick := rfl
@[simp] theorem State.setRegs_outcome (w : Vector Byte 16) : (s.setRegs w).outcome = s.outcome := rfl
@[simp] theorem State.setRegs_log (w : Vector Byte 16) : (s.setRegs w).log = s.log := rfl
@[simp] theorem State.setRegs_randDraws (w : Vector Byte 16) : (s.setRegs w).randDraws = s.randDraws := rfl

/-! `setFlag` writes `v` alone. -/

@[simp] theorem State.setFlag_cfg (f : Bool) : (s.setFlag f).cfg = s.cfg := rfl
@[simp] theorem State.setFlag_i (f : Bool) : (s.setFlag f).i = s.i := rfl
@[simp] theorem State.setFlag_pc (f : Bool) : (s.setFlag f).pc = s.pc := rfl
@[simp] theorem State.setFlag_dt (f : Bool) : (s.setFlag f).dt = s.dt := rfl
@[simp] theorem State.setFlag_st (f : Bool) : (s.setFlag f).st = s.st := rfl
@[simp] theorem State.setFlag_keys (f : Bool) : (s.setFlag f).keys = s.keys := rfl
@[simp] theorem State.setFlag_fb (f : Bool) : (s.setFlag f).fb = s.fb := rfl
@[simp] theorem State.setFlag_mem (f : Bool) : (s.setFlag f).mem = s.mem := rfl
@[simp] theorem State.setFlag_stack (f : Bool) : (s.setFlag f).stack = s.stack := rfl
@[simp] theorem State.setFlag_dirty (f : Bool) : (s.setFlag f).dirty = s.dirty := rfl
@[simp] theorem State.setFlag_drewThisTick (f : Bool) : (s.setFlag f).drewThisTick = s.drewThisTick := rfl
@[simp] theorem State.setFlag_outcome (f : Bool) : (s.setFlag f).outcome = s.outcome := rfl
@[simp] theorem State.setFlag_log (f : Bool) : (s.setFlag f).log = s.log := rfl
@[simp] theorem State.setFlag_randDraws (f : Bool) : (s.setFlag f).randDraws = s.randDraws := rfl

/-! `setI` writes `i` alone. -/

@[simp] theorem State.setI_cfg (a : Word) : (s.setI a).cfg = s.cfg := rfl
@[simp] theorem State.setI_v (a : Word) : (s.setI a).v = s.v := rfl
@[simp] theorem State.setI_i (a : Word) : (s.setI a).i = a := rfl
@[simp] theorem State.setI_pc (a : Word) : (s.setI a).pc = s.pc := rfl
@[simp] theorem State.setI_dt (a : Word) : (s.setI a).dt = s.dt := rfl
@[simp] theorem State.setI_st (a : Word) : (s.setI a).st = s.st := rfl
@[simp] theorem State.setI_keys (a : Word) : (s.setI a).keys = s.keys := rfl
@[simp] theorem State.setI_fb (a : Word) : (s.setI a).fb = s.fb := rfl
@[simp] theorem State.setI_mem (a : Word) : (s.setI a).mem = s.mem := rfl
@[simp] theorem State.setI_stack (a : Word) : (s.setI a).stack = s.stack := rfl
@[simp] theorem State.setI_dirty (a : Word) : (s.setI a).dirty = s.dirty := rfl
@[simp] theorem State.setI_drewThisTick (a : Word) : (s.setI a).drewThisTick = s.drewThisTick := rfl
@[simp] theorem State.setI_outcome (a : Word) : (s.setI a).outcome = s.outcome := rfl
@[simp] theorem State.setI_log (a : Word) : (s.setI a).log = s.log := rfl
@[simp] theorem State.setI_randDraws (a : Word) : (s.setI a).randDraws = s.randDraws := rfl

/-! `setPc` writes `pc` alone. -/

@[simp] theorem State.setPc_cfg (a : Word) : (s.setPc a).cfg = s.cfg := rfl
@[simp] theorem State.setPc_v (a : Word) : (s.setPc a).v = s.v := rfl
@[simp] theorem State.setPc_i (a : Word) : (s.setPc a).i = s.i := rfl
@[simp] theorem State.setPc_pc (a : Word) : (s.setPc a).pc = a := rfl
@[simp] theorem State.setPc_dt (a : Word) : (s.setPc a).dt = s.dt := rfl
@[simp] theorem State.setPc_st (a : Word) : (s.setPc a).st = s.st := rfl
@[simp] theorem State.setPc_keys (a : Word) : (s.setPc a).keys = s.keys := rfl
@[simp] theorem State.setPc_fb (a : Word) : (s.setPc a).fb = s.fb := rfl
@[simp] theorem State.setPc_mem (a : Word) : (s.setPc a).mem = s.mem := rfl
@[simp] theorem State.setPc_stack (a : Word) : (s.setPc a).stack = s.stack := rfl
@[simp] theorem State.setPc_dirty (a : Word) : (s.setPc a).dirty = s.dirty := rfl
@[simp] theorem State.setPc_drewThisTick (a : Word) : (s.setPc a).drewThisTick = s.drewThisTick := rfl
@[simp] theorem State.setPc_outcome (a : Word) : (s.setPc a).outcome = s.outcome := rfl
@[simp] theorem State.setPc_log (a : Word) : (s.setPc a).log = s.log := rfl
@[simp] theorem State.setPc_randDraws (a : Word) : (s.setPc a).randDraws = s.randDraws := rfl

/-! `advancePc` writes `pc` alone. -/

@[simp] theorem State.advancePc_cfg : s.advancePc.cfg = s.cfg := rfl
@[simp] theorem State.advancePc_v : s.advancePc.v = s.v := rfl
@[simp] theorem State.advancePc_i : s.advancePc.i = s.i := rfl
@[simp] theorem State.advancePc_pc : s.advancePc.pc = s.pc + 2#16 := rfl
@[simp] theorem State.advancePc_dt : s.advancePc.dt = s.dt := rfl
@[simp] theorem State.advancePc_st : s.advancePc.st = s.st := rfl
@[simp] theorem State.advancePc_keys : s.advancePc.keys = s.keys := rfl
@[simp] theorem State.advancePc_fb : s.advancePc.fb = s.fb := rfl
@[simp] theorem State.advancePc_mem : s.advancePc.mem = s.mem := rfl
@[simp] theorem State.advancePc_stack : s.advancePc.stack = s.stack := rfl
@[simp] theorem State.advancePc_dirty : s.advancePc.dirty = s.dirty := rfl
@[simp] theorem State.advancePc_drewThisTick : s.advancePc.drewThisTick = s.drewThisTick := rfl
@[simp] theorem State.advancePc_outcome : s.advancePc.outcome = s.outcome := rfl
@[simp] theorem State.advancePc_log : s.advancePc.log = s.log := rfl
@[simp] theorem State.advancePc_randDraws : s.advancePc.randDraws = s.randDraws := rfl

/-! `rewindPc` writes `pc` alone. -/

@[simp] theorem State.rewindPc_cfg : s.rewindPc.cfg = s.cfg := rfl
@[simp] theorem State.rewindPc_v : s.rewindPc.v = s.v := rfl
@[simp] theorem State.rewindPc_i : s.rewindPc.i = s.i := rfl
@[simp] theorem State.rewindPc_pc : s.rewindPc.pc = s.pc - 2#16 := rfl
@[simp] theorem State.rewindPc_dt : s.rewindPc.dt = s.dt := rfl
@[simp] theorem State.rewindPc_st : s.rewindPc.st = s.st := rfl
@[simp] theorem State.rewindPc_keys : s.rewindPc.keys = s.keys := rfl
@[simp] theorem State.rewindPc_fb : s.rewindPc.fb = s.fb := rfl
@[simp] theorem State.rewindPc_mem : s.rewindPc.mem = s.mem := rfl
@[simp] theorem State.rewindPc_stack : s.rewindPc.stack = s.stack := rfl
@[simp] theorem State.rewindPc_dirty : s.rewindPc.dirty = s.dirty := rfl
@[simp] theorem State.rewindPc_drewThisTick : s.rewindPc.drewThisTick = s.drewThisTick := rfl
@[simp] theorem State.rewindPc_outcome : s.rewindPc.outcome = s.outcome := rfl
@[simp] theorem State.rewindPc_log : s.rewindPc.log = s.log := rfl
@[simp] theorem State.rewindPc_randDraws : s.rewindPc.randDraws = s.randDraws := rfl

/-! `setDt` writes `dt` alone. -/

@[simp] theorem State.setDt_cfg (b : Byte) : (s.setDt b).cfg = s.cfg := rfl
@[simp] theorem State.setDt_v (b : Byte) : (s.setDt b).v = s.v := rfl
@[simp] theorem State.setDt_i (b : Byte) : (s.setDt b).i = s.i := rfl
@[simp] theorem State.setDt_pc (b : Byte) : (s.setDt b).pc = s.pc := rfl
@[simp] theorem State.setDt_dt (b : Byte) : (s.setDt b).dt = b := rfl
@[simp] theorem State.setDt_st (b : Byte) : (s.setDt b).st = s.st := rfl
@[simp] theorem State.setDt_keys (b : Byte) : (s.setDt b).keys = s.keys := rfl
@[simp] theorem State.setDt_fb (b : Byte) : (s.setDt b).fb = s.fb := rfl
@[simp] theorem State.setDt_mem (b : Byte) : (s.setDt b).mem = s.mem := rfl
@[simp] theorem State.setDt_stack (b : Byte) : (s.setDt b).stack = s.stack := rfl
@[simp] theorem State.setDt_dirty (b : Byte) : (s.setDt b).dirty = s.dirty := rfl
@[simp] theorem State.setDt_drewThisTick (b : Byte) : (s.setDt b).drewThisTick = s.drewThisTick := rfl
@[simp] theorem State.setDt_outcome (b : Byte) : (s.setDt b).outcome = s.outcome := rfl
@[simp] theorem State.setDt_log (b : Byte) : (s.setDt b).log = s.log := rfl
@[simp] theorem State.setDt_randDraws (b : Byte) : (s.setDt b).randDraws = s.randDraws := rfl

/-! `setSt` writes `st` alone. -/

@[simp] theorem State.setSt_cfg (b : Byte) : (s.setSt b).cfg = s.cfg := rfl
@[simp] theorem State.setSt_v (b : Byte) : (s.setSt b).v = s.v := rfl
@[simp] theorem State.setSt_i (b : Byte) : (s.setSt b).i = s.i := rfl
@[simp] theorem State.setSt_pc (b : Byte) : (s.setSt b).pc = s.pc := rfl
@[simp] theorem State.setSt_dt (b : Byte) : (s.setSt b).dt = s.dt := rfl
@[simp] theorem State.setSt_st (b : Byte) : (s.setSt b).st = b := rfl
@[simp] theorem State.setSt_keys (b : Byte) : (s.setSt b).keys = s.keys := rfl
@[simp] theorem State.setSt_fb (b : Byte) : (s.setSt b).fb = s.fb := rfl
@[simp] theorem State.setSt_mem (b : Byte) : (s.setSt b).mem = s.mem := rfl
@[simp] theorem State.setSt_stack (b : Byte) : (s.setSt b).stack = s.stack := rfl
@[simp] theorem State.setSt_dirty (b : Byte) : (s.setSt b).dirty = s.dirty := rfl
@[simp] theorem State.setSt_drewThisTick (b : Byte) : (s.setSt b).drewThisTick = s.drewThisTick := rfl
@[simp] theorem State.setSt_outcome (b : Byte) : (s.setSt b).outcome = s.outcome := rfl
@[simp] theorem State.setSt_log (b : Byte) : (s.setSt b).log = s.log := rfl
@[simp] theorem State.setSt_randDraws (b : Byte) : (s.setSt b).randDraws = s.randDraws := rfl

/-! `setKey` writes `keys` alone. -/

@[simp] theorem State.setKey_cfg (k : Nibble) (d : Bool) : (s.setKey k d).cfg = s.cfg := rfl
@[simp] theorem State.setKey_v (k : Nibble) (d : Bool) : (s.setKey k d).v = s.v := rfl
@[simp] theorem State.setKey_i (k : Nibble) (d : Bool) : (s.setKey k d).i = s.i := rfl
@[simp] theorem State.setKey_pc (k : Nibble) (d : Bool) : (s.setKey k d).pc = s.pc := rfl
@[simp] theorem State.setKey_dt (k : Nibble) (d : Bool) : (s.setKey k d).dt = s.dt := rfl
@[simp] theorem State.setKey_st (k : Nibble) (d : Bool) : (s.setKey k d).st = s.st := rfl
@[simp] theorem State.setKey_keys (k : Nibble) (d : Bool) : (s.setKey k d).keys = s.keys.set k.toNat d k.isLt := rfl
@[simp] theorem State.setKey_fb (k : Nibble) (d : Bool) : (s.setKey k d).fb = s.fb := rfl
@[simp] theorem State.setKey_mem (k : Nibble) (d : Bool) : (s.setKey k d).mem = s.mem := rfl
@[simp] theorem State.setKey_stack (k : Nibble) (d : Bool) : (s.setKey k d).stack = s.stack := rfl
@[simp] theorem State.setKey_dirty (k : Nibble) (d : Bool) : (s.setKey k d).dirty = s.dirty := rfl
@[simp] theorem State.setKey_drewThisTick (k : Nibble) (d : Bool) : (s.setKey k d).drewThisTick = s.drewThisTick := rfl
@[simp] theorem State.setKey_outcome (k : Nibble) (d : Bool) : (s.setKey k d).outcome = s.outcome := rfl
@[simp] theorem State.setKey_log (k : Nibble) (d : Bool) : (s.setKey k d).log = s.log := rfl
@[simp] theorem State.setKey_randDraws (k : Nibble) (d : Bool) : (s.setKey k d).randDraws = s.randDraws := rfl

/-! `setStack` writes `stack` alone. -/

@[simp] theorem State.setStack_cfg (l : List Word) : (s.setStack l).cfg = s.cfg := rfl
@[simp] theorem State.setStack_v (l : List Word) : (s.setStack l).v = s.v := rfl
@[simp] theorem State.setStack_i (l : List Word) : (s.setStack l).i = s.i := rfl
@[simp] theorem State.setStack_pc (l : List Word) : (s.setStack l).pc = s.pc := rfl
@[simp] theorem State.setStack_dt (l : List Word) : (s.setStack l).dt = s.dt := rfl
@[simp] theorem State.setStack_st (l : List Word) : (s.setStack l).st = s.st := rfl
@[simp] theorem State.setStack_keys (l : List Word) : (s.setStack l).keys = s.keys := rfl
@[simp] theorem State.setStack_fb (l : List Word) : (s.setStack l).fb = s.fb := rfl
@[simp] theorem State.setStack_mem (l : List Word) : (s.setStack l).mem = s.mem := rfl
@[simp] theorem State.setStack_stack (l : List Word) : (s.setStack l).stack = l := rfl
@[simp] theorem State.setStack_dirty (l : List Word) : (s.setStack l).dirty = s.dirty := rfl
@[simp] theorem State.setStack_drewThisTick (l : List Word) : (s.setStack l).drewThisTick = s.drewThisTick := rfl
@[simp] theorem State.setStack_outcome (l : List Word) : (s.setStack l).outcome = s.outcome := rfl
@[simp] theorem State.setStack_log (l : List Word) : (s.setStack l).log = s.log := rfl
@[simp] theorem State.setStack_randDraws (l : List Word) : (s.setStack l).randDraws = s.randDraws := rfl

/-! `setMem` writes `mem` alone. -/

@[simp] theorem State.setMem_cfg (m : Memory) : (s.setMem m).cfg = s.cfg := rfl
@[simp] theorem State.setMem_v (m : Memory) : (s.setMem m).v = s.v := rfl
@[simp] theorem State.setMem_i (m : Memory) : (s.setMem m).i = s.i := rfl
@[simp] theorem State.setMem_pc (m : Memory) : (s.setMem m).pc = s.pc := rfl
@[simp] theorem State.setMem_dt (m : Memory) : (s.setMem m).dt = s.dt := rfl
@[simp] theorem State.setMem_st (m : Memory) : (s.setMem m).st = s.st := rfl
@[simp] theorem State.setMem_keys (m : Memory) : (s.setMem m).keys = s.keys := rfl
@[simp] theorem State.setMem_fb (m : Memory) : (s.setMem m).fb = s.fb := rfl
@[simp] theorem State.setMem_mem (m : Memory) : (s.setMem m).mem = m := rfl
@[simp] theorem State.setMem_stack (m : Memory) : (s.setMem m).stack = s.stack := rfl
@[simp] theorem State.setMem_dirty (m : Memory) : (s.setMem m).dirty = s.dirty := rfl
@[simp] theorem State.setMem_drewThisTick (m : Memory) : (s.setMem m).drewThisTick = s.drewThisTick := rfl
@[simp] theorem State.setMem_outcome (m : Memory) : (s.setMem m).outcome = s.outcome := rfl
@[simp] theorem State.setMem_log (m : Memory) : (s.setMem m).log = s.log := rfl
@[simp] theorem State.setMem_randDraws (m : Memory) : (s.setMem m).randDraws = s.randDraws := rfl

/-! `writeMem` writes `mem` alone. -/

@[simp] theorem State.writeMem_cfg (a : Nat) (b : Byte) : (s.writeMem a b).cfg = s.cfg := rfl
@[simp] theorem State.writeMem_v (a : Nat) (b : Byte) : (s.writeMem a b).v = s.v := rfl
@[simp] theorem State.writeMem_i (a : Nat) (b : Byte) : (s.writeMem a b).i = s.i := rfl
@[simp] theorem State.writeMem_pc (a : Nat) (b : Byte) : (s.writeMem a b).pc = s.pc := rfl
@[simp] theorem State.writeMem_dt (a : Nat) (b : Byte) : (s.writeMem a b).dt = s.dt := rfl
@[simp] theorem State.writeMem_st (a : Nat) (b : Byte) : (s.writeMem a b).st = s.st := rfl
@[simp] theorem State.writeMem_keys (a : Nat) (b : Byte) : (s.writeMem a b).keys = s.keys := rfl
@[simp] theorem State.writeMem_fb (a : Nat) (b : Byte) : (s.writeMem a b).fb = s.fb := rfl
@[simp] theorem State.writeMem_mem (a : Nat) (b : Byte) : (s.writeMem a b).mem = Memory.writeAt s.cfg s.mem (s.dataAddress a) b := rfl
@[simp] theorem State.writeMem_stack (a : Nat) (b : Byte) : (s.writeMem a b).stack = s.stack := rfl
@[simp] theorem State.writeMem_dirty (a : Nat) (b : Byte) : (s.writeMem a b).dirty = s.dirty := rfl
@[simp] theorem State.writeMem_drewThisTick (a : Nat) (b : Byte) : (s.writeMem a b).drewThisTick = s.drewThisTick := rfl
@[simp] theorem State.writeMem_outcome (a : Nat) (b : Byte) : (s.writeMem a b).outcome = s.outcome := rfl
@[simp] theorem State.writeMem_log (a : Nat) (b : Byte) : (s.writeMem a b).log = s.log := rfl
@[simp] theorem State.writeMem_randDraws (a : Nat) (b : Byte) : (s.writeMem a b).randDraws = s.randDraws := rfl

/-! `setOutcome` writes `outcome` alone. -/

@[simp] theorem State.setOutcome_cfg (o : StepOutcome) : (s.setOutcome o).cfg = s.cfg := rfl
@[simp] theorem State.setOutcome_v (o : StepOutcome) : (s.setOutcome o).v = s.v := rfl
@[simp] theorem State.setOutcome_i (o : StepOutcome) : (s.setOutcome o).i = s.i := rfl
@[simp] theorem State.setOutcome_pc (o : StepOutcome) : (s.setOutcome o).pc = s.pc := rfl
@[simp] theorem State.setOutcome_dt (o : StepOutcome) : (s.setOutcome o).dt = s.dt := rfl
@[simp] theorem State.setOutcome_st (o : StepOutcome) : (s.setOutcome o).st = s.st := rfl
@[simp] theorem State.setOutcome_keys (o : StepOutcome) : (s.setOutcome o).keys = s.keys := rfl
@[simp] theorem State.setOutcome_fb (o : StepOutcome) : (s.setOutcome o).fb = s.fb := rfl
@[simp] theorem State.setOutcome_mem (o : StepOutcome) : (s.setOutcome o).mem = s.mem := rfl
@[simp] theorem State.setOutcome_stack (o : StepOutcome) : (s.setOutcome o).stack = s.stack := rfl
@[simp] theorem State.setOutcome_dirty (o : StepOutcome) : (s.setOutcome o).dirty = s.dirty := rfl
@[simp] theorem State.setOutcome_drewThisTick (o : StepOutcome) : (s.setOutcome o).drewThisTick = s.drewThisTick := rfl
@[simp] theorem State.setOutcome_outcome (o : StepOutcome) : (s.setOutcome o).outcome = some o := rfl
@[simp] theorem State.setOutcome_log (o : StepOutcome) : (s.setOutcome o).log = s.log := rfl
@[simp] theorem State.setOutcome_randDraws (o : StepOutcome) : (s.setOutcome o).randDraws = s.randDraws := rfl

/-! `report` writes `log` alone. -/

@[simp] theorem State.report_cfg (e : LogEvent) : (s.report e).cfg = s.cfg := rfl
@[simp] theorem State.report_v (e : LogEvent) : (s.report e).v = s.v := rfl
@[simp] theorem State.report_i (e : LogEvent) : (s.report e).i = s.i := rfl
@[simp] theorem State.report_pc (e : LogEvent) : (s.report e).pc = s.pc := rfl
@[simp] theorem State.report_dt (e : LogEvent) : (s.report e).dt = s.dt := rfl
@[simp] theorem State.report_st (e : LogEvent) : (s.report e).st = s.st := rfl
@[simp] theorem State.report_keys (e : LogEvent) : (s.report e).keys = s.keys := rfl
@[simp] theorem State.report_fb (e : LogEvent) : (s.report e).fb = s.fb := rfl
@[simp] theorem State.report_mem (e : LogEvent) : (s.report e).mem = s.mem := rfl
@[simp] theorem State.report_stack (e : LogEvent) : (s.report e).stack = s.stack := rfl
@[simp] theorem State.report_dirty (e : LogEvent) : (s.report e).dirty = s.dirty := rfl
@[simp] theorem State.report_drewThisTick (e : LogEvent) : (s.report e).drewThisTick = s.drewThisTick := rfl
@[simp] theorem State.report_outcome (e : LogEvent) : (s.report e).outcome = s.outcome := rfl
@[simp] theorem State.report_log (e : LogEvent) : (s.report e).log = e :: s.log := rfl
@[simp] theorem State.report_randDraws (e : LogEvent) : (s.report e).randDraws = s.randDraws := rfl

/-! Reads that an update does not touch. -/

@[simp] theorem State.getKey_setV (r : Reg) (b : Byte) (q : Nibble) : (s.setV r b).getKey q = s.getKey q := rfl
@[simp] theorem State.readMem_setV (r : Reg) (b : Byte) (q : Nat) : (s.setV r b).readMem q = s.readMem q := rfl
@[simp] theorem State.dataAddress_setV (r : Reg) (b : Byte) (q : Nat) : (s.setV r b).dataAddress q = s.dataAddress q := rfl
@[simp] theorem State.fetch_setV (r : Reg) (b : Byte) : (s.setV r b).fetch = s.fetch := rfl
@[simp] theorem State.getKey_setRegs (w : Vector Byte 16) (q : Nibble) : (s.setRegs w).getKey q = s.getKey q := rfl
@[simp] theorem State.readMem_setRegs (w : Vector Byte 16) (q : Nat) : (s.setRegs w).readMem q = s.readMem q := rfl
@[simp] theorem State.dataAddress_setRegs (w : Vector Byte 16) (q : Nat) : (s.setRegs w).dataAddress q = s.dataAddress q := rfl
@[simp] theorem State.fetch_setRegs (w : Vector Byte 16) : (s.setRegs w).fetch = s.fetch := rfl
@[simp] theorem State.getKey_setFlag (f : Bool) (q : Nibble) : (s.setFlag f).getKey q = s.getKey q := rfl
@[simp] theorem State.readMem_setFlag (f : Bool) (q : Nat) : (s.setFlag f).readMem q = s.readMem q := rfl
@[simp] theorem State.dataAddress_setFlag (f : Bool) (q : Nat) : (s.setFlag f).dataAddress q = s.dataAddress q := rfl
@[simp] theorem State.fetch_setFlag (f : Bool) : (s.setFlag f).fetch = s.fetch := rfl
@[simp] theorem State.getV_setI (a : Word) (q : Reg) : (s.setI a).getV q = s.getV q := rfl
@[simp] theorem State.getKey_setI (a : Word) (q : Nibble) : (s.setI a).getKey q = s.getKey q := rfl
@[simp] theorem State.readMem_setI (a : Word) (q : Nat) : (s.setI a).readMem q = s.readMem q := rfl
@[simp] theorem State.dataAddress_setI (a : Word) (q : Nat) : (s.setI a).dataAddress q = s.dataAddress q := rfl
@[simp] theorem State.fetch_setI (a : Word) : (s.setI a).fetch = s.fetch := rfl
@[simp] theorem State.getV_setPc (a : Word) (q : Reg) : (s.setPc a).getV q = s.getV q := rfl
@[simp] theorem State.getKey_setPc (a : Word) (q : Nibble) : (s.setPc a).getKey q = s.getKey q := rfl
@[simp] theorem State.readMem_setPc (a : Word) (q : Nat) : (s.setPc a).readMem q = s.readMem q := rfl
@[simp] theorem State.dataAddress_setPc (a : Word) (q : Nat) : (s.setPc a).dataAddress q = s.dataAddress q := rfl
@[simp] theorem State.getV_advancePc (q : Reg) : s.advancePc.getV q = s.getV q := rfl
@[simp] theorem State.getKey_advancePc (q : Nibble) : s.advancePc.getKey q = s.getKey q := rfl
@[simp] theorem State.readMem_advancePc (q : Nat) : s.advancePc.readMem q = s.readMem q := rfl
@[simp] theorem State.dataAddress_advancePc (q : Nat) : s.advancePc.dataAddress q = s.dataAddress q := rfl
@[simp] theorem State.getV_rewindPc (q : Reg) : s.rewindPc.getV q = s.getV q := rfl
@[simp] theorem State.getKey_rewindPc (q : Nibble) : s.rewindPc.getKey q = s.getKey q := rfl
@[simp] theorem State.readMem_rewindPc (q : Nat) : s.rewindPc.readMem q = s.readMem q := rfl
@[simp] theorem State.dataAddress_rewindPc (q : Nat) : s.rewindPc.dataAddress q = s.dataAddress q := rfl
@[simp] theorem State.getV_setDt (b : Byte) (q : Reg) : (s.setDt b).getV q = s.getV q := rfl
@[simp] theorem State.getKey_setDt (b : Byte) (q : Nibble) : (s.setDt b).getKey q = s.getKey q := rfl
@[simp] theorem State.readMem_setDt (b : Byte) (q : Nat) : (s.setDt b).readMem q = s.readMem q := rfl
@[simp] theorem State.dataAddress_setDt (b : Byte) (q : Nat) : (s.setDt b).dataAddress q = s.dataAddress q := rfl
@[simp] theorem State.fetch_setDt (b : Byte) : (s.setDt b).fetch = s.fetch := rfl
@[simp] theorem State.getV_setSt (b : Byte) (q : Reg) : (s.setSt b).getV q = s.getV q := rfl
@[simp] theorem State.getKey_setSt (b : Byte) (q : Nibble) : (s.setSt b).getKey q = s.getKey q := rfl
@[simp] theorem State.readMem_setSt (b : Byte) (q : Nat) : (s.setSt b).readMem q = s.readMem q := rfl
@[simp] theorem State.dataAddress_setSt (b : Byte) (q : Nat) : (s.setSt b).dataAddress q = s.dataAddress q := rfl
@[simp] theorem State.fetch_setSt (b : Byte) : (s.setSt b).fetch = s.fetch := rfl
@[simp] theorem State.getV_setKey (k : Nibble) (d : Bool) (q : Reg) : (s.setKey k d).getV q = s.getV q := rfl
@[simp] theorem State.readMem_setKey (k : Nibble) (d : Bool) (q : Nat) : (s.setKey k d).readMem q = s.readMem q := rfl
@[simp] theorem State.dataAddress_setKey (k : Nibble) (d : Bool) (q : Nat) : (s.setKey k d).dataAddress q = s.dataAddress q := rfl
@[simp] theorem State.fetch_setKey (k : Nibble) (d : Bool) : (s.setKey k d).fetch = s.fetch := rfl
@[simp] theorem State.getV_setStack (l : List Word) (q : Reg) : (s.setStack l).getV q = s.getV q := rfl
@[simp] theorem State.getKey_setStack (l : List Word) (q : Nibble) : (s.setStack l).getKey q = s.getKey q := rfl
@[simp] theorem State.readMem_setStack (l : List Word) (q : Nat) : (s.setStack l).readMem q = s.readMem q := rfl
@[simp] theorem State.dataAddress_setStack (l : List Word) (q : Nat) : (s.setStack l).dataAddress q = s.dataAddress q := rfl
@[simp] theorem State.fetch_setStack (l : List Word) : (s.setStack l).fetch = s.fetch := rfl
@[simp] theorem State.getV_setMem (m : Memory) (q : Reg) : (s.setMem m).getV q = s.getV q := rfl
@[simp] theorem State.getKey_setMem (m : Memory) (q : Nibble) : (s.setMem m).getKey q = s.getKey q := rfl
@[simp] theorem State.dataAddress_setMem (m : Memory) (q : Nat) : (s.setMem m).dataAddress q = s.dataAddress q := rfl
@[simp] theorem State.getV_writeMem (a : Nat) (b : Byte) (q : Reg) : (s.writeMem a b).getV q = s.getV q := rfl
@[simp] theorem State.getKey_writeMem (a : Nat) (b : Byte) (q : Nibble) : (s.writeMem a b).getKey q = s.getKey q := rfl
@[simp] theorem State.dataAddress_writeMem (a : Nat) (b : Byte) (q : Nat) : (s.writeMem a b).dataAddress q = s.dataAddress q := rfl
@[simp] theorem State.getV_setOutcome (o : StepOutcome) (q : Reg) : (s.setOutcome o).getV q = s.getV q := rfl
@[simp] theorem State.getKey_setOutcome (o : StepOutcome) (q : Nibble) : (s.setOutcome o).getKey q = s.getKey q := rfl
@[simp] theorem State.readMem_setOutcome (o : StepOutcome) (q : Nat) : (s.setOutcome o).readMem q = s.readMem q := rfl
@[simp] theorem State.dataAddress_setOutcome (o : StepOutcome) (q : Nat) : (s.setOutcome o).dataAddress q = s.dataAddress q := rfl
@[simp] theorem State.fetch_setOutcome (o : StepOutcome) : (s.setOutcome o).fetch = s.fetch := rfl
@[simp] theorem State.getV_report (e : LogEvent) (q : Reg) : (s.report e).getV q = s.getV q := rfl
@[simp] theorem State.getKey_report (e : LogEvent) (q : Nibble) : (s.report e).getKey q = s.getKey q := rfl
@[simp] theorem State.readMem_report (e : LogEvent) (q : Nat) : (s.report e).readMem q = s.readMem q := rfl
@[simp] theorem State.dataAddress_report (e : LogEvent) (q : Nat) : (s.report e).dataAddress q = s.dataAddress q := rfl
@[simp] theorem State.fetch_report (e : LogEvent) : (s.report e).fetch = s.fetch := rfl

end Sys2Proof.Machine
end

