-- ==== Sys2Proof/Laws/Memory.lean ====
section
/-! SUPPORT. Memory: a read after a write, the canonical form is kept, and two memories in canonical form that read alike are
equal. -/

namespace Sys2Proof.Machine

theorem Memory.readAt_insertCell (cfg : Config) (m : Memory) (a : Nat) (b : Byte) (q : Nat) :
    Memory.readAt cfg (m.insertCell a b) q = if q = a then b else Memory.readAt cfg m q := by
  induction m with
  | nil => simp [Memory.insertCell, Memory.readAt, eq_comm]
  | cons c rest ih =>
    simp only [Memory.insertCell]
    split_ifs with h1 h2 <;> simp only [Memory.readAt, ih] <;> split_ifs <;> first | rfl | omega

theorem Memory.readAt_removeCell (cfg : Config) (m : Memory) (a q : Nat) :
    Memory.readAt cfg (m.removeCell a) q = if q = a then Memory.unlisted cfg a else Memory.readAt cfg m q := by
  induction m with
  | nil => simp only [Memory.removeCell, Memory.readAt]; split_ifs with h <;> simp [h]
  | cons c rest ih =>
    simp only [Memory.removeCell]
    split_ifs with h1 h2 <;> simp only [Memory.readAt, ih] <;> split_ifs <;> first | rfl | omega

/-- A read after a write gives the byte written at its address and the old byte elsewhere. -/
theorem Memory.readAt_writeAt (cfg : Config) (m : Memory) (a : Nat) (b : Byte) (q : Nat) :
    Memory.readAt cfg (m.writeAt cfg a b) q = if q = a then b else Memory.readAt cfg m q := by
  unfold Memory.writeAt
  split_ifs with h1 h2
  · rw [Memory.readAt_removeCell, if_pos h2, h1]
  · rw [Memory.readAt_removeCell, if_neg h2]
  · rw [Memory.readAt_insertCell, if_pos ‹_›]
  · rw [Memory.readAt_insertCell, if_neg ‹_›]

theorem Memory.mem_insertCell {m : Memory} {a : Nat} {b : Byte} {c : Host.Cell} (h : c ∈ m.insertCell a b) :
    c = (a, b) ∨ c ∈ m := by
  induction m with
  | nil => simpa [Memory.insertCell] using h
  | cons d rest ih =>
    simp only [Memory.insertCell] at h
    split_ifs at h with h1 h2
    · simpa using h
    · rcases List.mem_cons.1 h with h | h
      · exact .inl h
      · exact .inr (List.mem_cons_of_mem _ h)
    · rcases List.mem_cons.1 h with h | h
      · exact .inr (h ▸ List.mem_cons_self)
      · exact (ih h).imp id (List.mem_cons_of_mem _)

theorem Memory.mem_removeCell {m : Memory} {a : Nat} {c : Host.Cell} (h : c ∈ m.removeCell a) : c ∈ m := by
  induction m with
  | nil => simp [Memory.removeCell] at h
  | cons d rest ih =>
    simp only [Memory.removeCell] at h
    split_ifs at h with h1
    · exact List.mem_cons_of_mem _ (ih h)
    · rcases List.mem_cons.1 h with h | h
      · exact h ▸ List.mem_cons_self
      · exact List.mem_cons_of_mem _ (ih h)

theorem Memory.insertCell_rising {m : Memory} {a : Nat} {b : Byte} (h : (m.map Prod.fst).Pairwise (· < ·)) :
    ((m.insertCell a b).map Prod.fst).Pairwise (· < ·) := by
  induction m with
  | nil => simp [Memory.insertCell]
  | cons c rest ih =>
    simp only [List.map_cons, List.pairwise_cons] at h
    simp only [Memory.insertCell]
    split_ifs with h1 h2
    · simp only [List.map_cons, List.pairwise_cons, List.mem_cons]
      refine ⟨?_, h⟩
      rintro k (rfl | hk)
      · exact h1
      · exact lt_trans h1 (h.1 k hk)
    · subst h2
      simpa using h
    · simp only [List.map_cons, List.pairwise_cons, List.mem_map]
      refine ⟨?_, ih h.2⟩
      rintro k ⟨d, hd, rfl⟩
      rcases Memory.mem_insertCell hd with rfl | hd
      · show c.1 < a
        omega
      · exact h.1 _ (List.mem_map_of_mem hd)

theorem Memory.removeCell_rising {m : Memory} {a : Nat} (h : (m.map Prod.fst).Pairwise (· < ·)) :
    ((m.removeCell a).map Prod.fst).Pairwise (· < ·) := by
  induction m with
  | nil => simp [Memory.removeCell]
  | cons c rest ih =>
    simp only [List.map_cons, List.pairwise_cons] at h
    simp only [Memory.removeCell]
    split_ifs with h1
    · exact ih h.2
    · simp only [List.map_cons, List.pairwise_cons, List.mem_map]
      refine ⟨?_, ih h.2⟩
      rintro k ⟨d, hd, rfl⟩
      exact h.1 _ (List.mem_map_of_mem (Memory.mem_removeCell hd))

/-- A store inside the byte buffer keeps the canonical form. -/
theorem Memory.writeAt_wf {cfg : Config} {m : Memory} {a : Nat} (b : Byte) (ha : a < cfg.memSize) (h : m.wf cfg) :
    (m.writeAt cfg a b).wf cfg := by
  unfold Memory.writeAt
  split_ifs with hb
  · exact ⟨Memory.removeCell_rising h.1, fun c hc => h.2 c (Memory.mem_removeCell hc)⟩
  · refine ⟨Memory.insertCell_rising h.1, fun c hc => ?_⟩
    rcases Memory.mem_insertCell hc with rfl | hc
    · exact ⟨ha, hb⟩
    · exact h.2 c hc

theorem Memory.nil_wf (cfg : Config) : Memory.wf cfg [] := ⟨List.Pairwise.nil, fun _ h => by cases h⟩

theorem Memory.readAt_of_lt (cfg : Config) {m : Memory} {a : Nat} (h : ∀ c ∈ m, a < c.1) :
    Memory.readAt cfg m a = Memory.unlisted cfg a := by
  induction m with
  | nil => rfl
  | cons c rest ih =>
    have hc : a < c.1 := h c List.mem_cons_self
    rw [Memory.readAt, if_neg (by omega)]
    exact ih fun d hd => h d (List.mem_cons_of_mem _ hd)

/-- Equal memories are equal data: in canonical form, memories that read alike at every address are equal. -/
theorem Memory.ext_of_wf {cfg : Config} {m n : Memory} (hm : m.wf cfg) (hn : n.wf cfg)
    (h : ∀ a, Memory.readAt cfg m a = Memory.readAt cfg n a) : m = n := by
  induction m generalizing n with
  | nil =>
    cases n with
    | nil => rfl
    | cons d rest =>
      have hd := h d.1
      rw [Memory.readAt, Memory.readAt, if_pos rfl] at hd
      exact absurd hd.symm (hn.2 d List.mem_cons_self).2
  | cons c mrest ih =>
    have hlt : ∀ e ∈ mrest, c.1 < e.1 := by
      have := hm.1
      simp only [List.map_cons, List.pairwise_cons] at this
      exact fun e he => this.1 _ (List.mem_map_of_mem he)
    cases n with
    | nil =>
      have hc := h c.1
      rw [Memory.readAt, Memory.readAt, if_pos rfl] at hc
      exact absurd hc (hm.2 c List.mem_cons_self).2
    | cons d nrest =>
      have hlt' : ∀ e ∈ nrest, d.1 < e.1 := by
        have := hn.1
        simp only [List.map_cons, List.pairwise_cons] at this
        exact fun e he => this.1 _ (List.mem_map_of_mem he)
      have hkey : c.1 = d.1 := by
        rcases lt_trichotomy c.1 d.1 with hcd | hcd | hcd
        · have hc := h c.1
          rw [Memory.readAt, if_pos rfl, Memory.readAt, if_neg (by omega),
            Memory.readAt_of_lt cfg fun e he => lt_trans hcd (hlt' e he)] at hc
          exact absurd hc (hm.2 c List.mem_cons_self).2
        · exact hcd
        · have hd := h d.1
          rw [Memory.readAt, if_neg (by omega), Memory.readAt_of_lt cfg fun e he => lt_trans hcd (hlt e he),
            Memory.readAt, if_pos rfl] at hd
          exact absurd hd.symm (hn.2 d List.mem_cons_self).2
      have hval : c.2 = d.2 := by
        have hc := h c.1
        rwa [Memory.readAt, if_pos rfl, Memory.readAt, if_pos hkey.symm] at hc
      have htail : ∀ {p : Host.Cell} {r : Memory}, Memory.wf cfg (p :: r) → Memory.wf cfg r := fun hp =>
        ⟨by have := hp.1; simp only [List.map_cons, List.pairwise_cons] at this; exact this.2,
          fun e he => hp.2 e (List.mem_cons_of_mem _ he)⟩
      have hrest : mrest = nrest := by
        refine ih (htail hm) (htail hn) fun a => ?_
        by_cases hac : a = c.1
        · subst hac
          rw [Memory.readAt_of_lt cfg hlt, Memory.readAt_of_lt cfg fun e he => by have := hlt' e he; omega]
        · have ha := h a
          rwa [Memory.readAt, if_neg fun e => hac e.symm, Memory.readAt,
            if_neg fun e => hac (by omega)] at ha
      rw [hrest, Prod.ext hkey hval]

end Sys2Proof.Machine
end

