-- ==== Sys2Proof/Laws/Ops.lean ====
section
/-! SUPPORT. What the shared operations over registers, stack, memory and flags do, one lemma each. -/

namespace Sys2Proof.Machine

/-! Registers and keys. -/

/-- A register reads as written, every other register as before. -/
@[simp] theorem State.getV_setV (s : State) (r : Reg) (b : Byte) (q : Reg) :
    (s.setV r b).getV q = if q = r then b else s.getV q := by
  simp only [State.getV, State.setV, Vector.getElem_set]
  by_cases h : q = r
  · simp [h]
  · rw [if_neg fun e => h (BitVec.eq_of_toNat_eq e.symm), if_neg h]

/-- A flag write makes `VF` 1 or 0 and leaves every other register. -/
@[simp] theorem State.getV_setFlag (s : State) (f : Bool) (q : Reg) :
    (s.setFlag f).getV q = if q = VF then (if f then 1#8 else 0#8) else s.getV q := by
  simp [State.setFlag]

@[simp] theorem State.getKey_setKey (s : State) (k : Nibble) (d : Bool) (q : Nibble) :
    (s.setKey k d).getKey q = if q = k then d else s.getKey q := by
  simp only [State.getKey, State.setKey, Vector.getElem_set]
  by_cases h : q = k
  · simp [h]
  · rw [if_neg fun e => h (BitVec.eq_of_toNat_eq e.symm), if_neg h]

/-- The block load gives the first `count` registers the bytes read and leaves the others. -/
theorem State.getElem_loadRegs (s : State) (base count : Nat) (v : Vector Byte 16) (k : Nat) (hk : k < 16) :
    (s.loadRegs base count v)[k] = if k < count then s.readMem (base + k) else v[k] := by
  induction count with
  | zero => simp [State.loadRegs]
  | succ n ih =>
    simp only [State.loadRegs, Vector.getElem_setIfInBounds, ih]
    split_ifs <;> first | rfl | omega | (subst_vars; rfl)

/-- The bytes a block store writes: `V0` to `V[x]`. -/
theorem State.regsUpTo_length (s : State) (x : Reg) : (s.regsUpTo x).length = x.toNat + 1 := by
  have := x.isLt
  simp [State.regsUpTo]
  omega

theorem State.regsUpTo_getElem (s : State) (x : Reg) (k : Reg) (h : k.toNat < (s.regsUpTo x).length) :
    (s.regsUpTo x)[k.toNat] = s.getV k := by
  simp [State.regsUpTo, State.getV]

/-! The call stack. -/

theorem State.push_eq_some (s t : State) (a : Word) :
    s.push a = some t ↔ s.stackHasRoom = true ∧ t = s.setStack (a :: s.stack) := by
  unfold State.push
  by_cases h : s.stackHasRoom = true
  · rw [if_pos h, Option.some.injEq]
    exact ⟨fun e => ⟨h, e.symm⟩, fun e => e.2.symm⟩
  · rw [if_neg h]
    exact ⟨fun e => (Option.some_ne_none _ e.symm).elim, fun e => (h e.1).elim⟩

theorem State.push_eq_none (s : State) (a : Word) : s.push a = none ↔ s.stackHasRoom = false := by
  unfold State.push
  split <;> simp_all

theorem State.pop_eq_some (s t : State) (a : Word) :
    s.pop = some (a, t) ↔ ∃ rest, s.stack = a :: rest ∧ t = s.setStack rest := by
  unfold State.pop
  split <;> simp_all [eq_comm]

theorem State.pop_eq_none (s : State) : s.pop = none ↔ s.stack = [] := by
  unfold State.pop
  split <;> simp_all

/-! Memory. -/

/-- A byte reads as written at its reduced address, every other address as before. -/
@[simp] theorem State.readMem_writeMem (s : State) (a : Nat) (b : Byte) (q : Nat) :
    (s.writeMem a b).readMem q = if s.dataAddress q = s.dataAddress a then b else s.readMem q := by
  simp [State.readMem, Memory.readAt_writeAt]

/-- Consecutive byte writes change memory alone. -/
theorem State.writeBytes_eq (s : State) (a : Nat) (bs : List Byte) :
    s.writeBytes a bs = s.setMem (s.writeBytes a bs).mem := by
  induction bs generalizing s a with
  | nil => rfl
  | cons b rest ih => rw [State.writeBytes, ih]; rfl

/-- An address none of the bytes is stored to reads as before. -/
theorem State.readMem_writeBytes_of_ne (s : State) (a : Nat) (bs : List Byte) (q : Nat)
    (h : ∀ k, k < bs.length → s.dataAddress q ≠ s.dataAddress (a + k)) :
    (s.writeBytes a bs).readMem q = s.readMem q := by
  induction bs generalizing s a with
  | nil => rfl
  | cons b rest ih =>
    rw [State.writeBytes, ih]
    · rw [State.readMem_writeMem, if_neg (by simpa using h 0 (by simp))]
    · intro k hk
      have := h (k + 1) (by simpa using hk)
      simpa [Nat.add_assoc, Nat.add_comm 1 k] using this

/-- Where the addresses do not wrap onto each other, byte `k` stands at address `a + k`. -/
theorem State.readMem_writeBytes (s : State) (a : Nat) (bs : List Byte) (hlen : bs.length ≤ s.cfg.memSize) (k : Nat)
    (hk : k < bs.length) : (s.writeBytes a bs).readMem (a + k) = bs[k] := by
  induction bs generalizing s a k with
  | nil => simp at hk
  | cons b rest ih =>
    simp only [List.length_cons] at hlen hk
    rw [State.writeBytes]
    cases k with
    | zero =>
      rw [Nat.add_zero, State.readMem_writeBytes_of_ne]
      · simp
      · intro j hj e
        simp only [State.dataAddress, State.writeMem_cfg] at e
        have := (Nat.ModEq.add_left_cancel' a (show a + 0 ≡ a + (1 + j) [MOD s.cfg.memSize] by
          simpa [Nat.ModEq, Nat.add_assoc] using e))
        have := (Nat.modEq_iff_dvd' (by omega)).1 this
        have := Nat.le_of_dvd (by omega) this
        omega
    | succ j =>
      have := ih (s.writeMem a b) (a + 1) (by simp; omega) j (by omega)
      simpa [Nat.add_assoc, Nat.add_comm 1 j] using this

/-- Every data access is inside the byte buffer. -/
theorem State.dataAddress_lt (s : State) (a : Nat) (h : 0 < s.cfg.memSize) : s.dataAddress a < s.cfg.memSize :=
  Nat.mod_lt a h

/-- Every memory operation keeps the canonical form: one store. -/
theorem State.writeMem_wf (s : State) (a : Nat) (b : Byte) (hpos : 0 < s.cfg.memSize) (h : Memory.wf s.cfg s.mem) :
    Memory.wf s.cfg (s.writeMem a b).mem :=
  Memory.writeAt_wf b (s.dataAddress_lt a hpos) h

@[simp] theorem State.writeBytes_cfg (s : State) (a : Nat) (bs : List Byte) : (s.writeBytes a bs).cfg = s.cfg := by
  rw [State.writeBytes_eq]
  rfl

/-- Every memory operation keeps the canonical form: consecutive stores. -/
theorem State.writeBytes_wf (s : State) (a : Nat) (bs : List Byte) (hpos : 0 < s.cfg.memSize)
    (h : Memory.wf s.cfg s.mem) : Memory.wf s.cfg (s.writeBytes a bs).mem := by
  induction bs generalizing s a with
  | nil => exact h
  | cons b rest ih => exact ih (s.writeMem a b) (a + 1) hpos (s.writeMem_wf a b hpos h)

/-! Flags, as arithmetic on naturals. -/

theorem carryOfAdd_iff (a b : Byte) : carryOfAdd a b = true ↔ 256 ≤ a.toNat + b.toNat := by
  have := a.isLt
  have := b.isLt
  simp only [carryOfAdd, decide_eq_true_eq, BitVec.lt_def, BitVec.toNat_add]
  omega

theorem noBorrow_iff (a b : Byte) : noBorrow a b = true ↔ b.toNat ≤ a.toNat := by
  simp [noBorrow, BitVec.le_def]

theorem shiftedOutRight_iff (b : Byte) : shiftedOutRight b = true ↔ b.toNat % 2 = 1 := by
  simp only [shiftedOutRight, BitVec.getLsbD, Nat.testBit_eq_decide_div_mod_eq, decide_eq_true_eq]
  omega

theorem shiftedOutLeft_iff (b : Byte) : shiftedOutLeft b = true ↔ 128 ≤ b.toNat := by
  have := b.isLt
  simp only [shiftedOutLeft, BitVec.getLsbD, Nat.testBit_eq_decide_div_mod_eq, decide_eq_true_eq]
  omega

/-- The logic-op flag reset clears `VF` under the quirk and changes no other register. -/
theorem State.getV_logicReset (s : State) (q : Reg) :
    s.logicReset.getV q = if s.cfg.quirks.logicOpsResetVf = true ∧ q = VF then 0#8 else s.getV q := by
  unfold State.logicReset
  split <;> simp_all

/-- The logic-op flag reset changes the register file alone. -/
theorem State.logicReset_eq (s : State) : s.logicReset = s.setRegs s.logicReset.v := by
  unfold State.logicReset
  split <;> rfl

/-! Operands. -/

theorem leastPressed_eq_none (ks : List Bool) (k : Nat) : leastPressed ks k = none ↔ ∀ b ∈ ks, b = false := by
  induction ks generalizing k with
  | nil => simp [leastPressed]
  | cons b rest ih => cases b <;> simp [leastPressed, ih]

theorem leastPressed_eq_some (ks : List Bool) (k j : Nat) :
    leastPressed ks k = some j ↔ ∃ n, j = k + n ∧ ks[n]? = some true ∧ ∀ m < n, ks[m]? = some false := by
  induction ks generalizing k with
  | nil => simp [leastPressed]
  | cons b rest ih =>
    cases b with
    | true =>
      simp only [leastPressed, if_true, Option.some.injEq]
      constructor
      · rintro rfl
        exact ⟨0, by simp⟩
      · rintro ⟨n, rfl, -, hn⟩
        cases n with
        | zero => rfl
        | succ n => simpa using hn 0 (by omega)
    | false =>
      simp only [leastPressed, Bool.false_eq_true, if_false, ih]
      constructor
      · rintro ⟨n, rfl, h, hn⟩
        refine ⟨n + 1, by omega, by simpa using h, fun m hm => ?_⟩
        cases m with
        | zero => simp
        | succ m => simpa using hn m (by omega)
      · rintro ⟨n, rfl, h, hn⟩
        cases n with
        | zero => simp at h
        | succ n =>
          refine ⟨n, by omega, by simpa using h, fun m hm => ?_⟩
          simpa using hn (m + 1) (by omega)

/-- No key is held. -/
theorem State.leastKey_eq_none (s : State) : s.leastKey = none ↔ ∀ k, s.getKey k = false := by
  rw [State.leastKey, leastPressed_eq_none]
  constructor
  · intro h k
    exact h _ (by simp [State.getKey])
  · intro h b hb
    obtain ⟨n, hn, rfl⟩ := List.mem_iff_getElem.1 hb
    have hn' : n < 16 := by simpa using hn
    have := h (BitVec.ofNat 4 n)
    simpa [State.getKey, Nat.mod_eq_of_lt hn'] using this

/-- The key found is held and no smaller one is. -/
theorem State.leastKey_eq_some (s : State) (k : Nibble) :
    s.leastKey = some k.toNat ↔ s.getKey k = true ∧ ∀ j < k, s.getKey j = false := by
  rw [State.leastKey, leastPressed_eq_some]
  have hk := k.isLt
  constructor
  · rintro ⟨n, hn, h, hlt⟩
    obtain rfl : n = k.toNat := by omega
    refine ⟨by simpa [State.getKey, hk] using h, fun j hj => ?_⟩
    have hjn : j.toNat < 16 := j.isLt
    have := hlt j.toNat (by simpa [BitVec.lt_def] using hj)
    simpa [State.getKey, hjn] using this
  · rintro ⟨h, hlt⟩
    refine ⟨k.toNat, by omega, by simpa [State.getKey, hk] using h, fun m hm => ?_⟩
    have hm16 : m < 16 := by omega
    have := hlt (BitVec.ofNat 4 m) (by simp [BitVec.lt_def, Nat.mod_eq_of_lt hm16]; omega)
    simpa [State.getKey, Nat.mod_eq_of_lt hm16, hm16] using this

end Sys2Proof.Machine
end

