-- ==== Sys2Proof/Laws/Display.lean ====
section
/-! SUPPORT. What drawing does to the framebuffer, pixel by pixel, and when it notes a collision. -/

namespace Sys2Proof.Machine

/-- Positions inside the screen have their own place in the row-major framebuffer. -/
theorem pixelIndex_inj (cfg : Config) {x y px py : Nat} (hx : x < cfg.width) (hpx : px < cfg.width)
    (h : pixelIndex cfg x y = pixelIndex cfg px py) : x = px ∧ y = py := by
  unfold pixelIndex at h
  have hy : (y * cfg.width + x) / cfg.width = y := by
    rw [Nat.mul_comm, Nat.mul_add_div (by omega), Nat.div_eq_of_lt hx, Nat.add_zero]
  have hpy : (py * cfg.width + px) / cfg.width = py := by
    rw [Nat.mul_comm, Nat.mul_add_div (by omega), Nat.div_eq_of_lt hpx, Nat.add_zero]
  have hyy : y = py := by rw [← hy, h, hpy]
  subst hyy
  exact ⟨by omega, rfl⟩

theorem pixelIndex_lt (cfg : Config) {x y : Nat} (hx : x < cfg.width) (hy : y < cfg.height) :
    pixelIndex cfg x y < cfg.width * cfg.height := by
  unfold pixelIndex
  calc y * cfg.width + x < y * cfg.width + cfg.width := by omega
    _ = (y + 1) * cfg.width := by ring
    _ ≤ cfg.height * cfg.width := Nat.mul_le_mul_right _ hy
    _ = cfg.width * cfg.height := Nat.mul_comm _ _

/-- Two framebuffers of the screen's size that agree pixel by pixel are equal. -/
theorem fb_ext (cfg : Config) {a b : List Bool} (ha : a.length = cfg.width * cfg.height)
    (hb : b.length = cfg.width * cfg.height)
    (h : ∀ x y, x < cfg.width → y < cfg.height → pixel cfg a x y = pixel cfg b x y) : a = b := by
  refine List.ext_getElem (by omega) fun k hka hkb => ?_
  have hpos : 0 < cfg.width := by
    rcases Nat.eq_zero_or_pos cfg.width with h0 | h0
    · simp [h0] at ha; simp [ha] at hka
    · exact h0
  have hidx : pixelIndex cfg (k % cfg.width) (k / cfg.width) = k := by
    unfold pixelIndex
    rw [Nat.mul_comm]
    exact Nat.div_add_mod k cfg.width
  have hy : k / cfg.width < cfg.height := by
    rw [Nat.div_lt_iff_lt_mul hpos, Nat.mul_comm]
    omega
  have := h _ _ (Nat.mod_lt k hpos) hy
  simpa [pixel, hidx, List.getD_eq_getElem, hka, hkb] using this

theorem drawPixel_length (cfg : Config) (x y : Nat) (bit : Bool) (c : Canvas) :
    (drawPixel cfg x y bit c).fb.length = c.fb.length := by
  unfold drawPixel
  split <;> simp

/-- One sprite bit flips its own pixel, if set and inside the screen, and no other. -/
theorem pixel_drawPixel (cfg : Config) (x y : Nat) (bit : Bool) (c : Canvas)
    (hlen : c.fb.length = cfg.width * cfg.height) (px py : Nat) (hpx : px < cfg.width) (hpy : py < cfg.height) :
    pixel cfg (drawPixel cfg x y bit c).fb px py =
      (pixel cfg c.fb px py ^^ (bit && decide (px = x) && decide (py = y))) := by
  unfold drawPixel
  split_ifs with h
  · obtain ⟨hb, hx, hy⟩ := h
    by_cases he : px = x ∧ py = y
    · obtain ⟨rfl, rfl⟩ := he
      have := pixelIndex_lt cfg hx hy
      simp [pixel, hb, List.getD_eq_getElem?_getD, hlen, this]
    · have hne : pixelIndex cfg x y ≠ pixelIndex cfg px py := fun e =>
        he ⟨(pixelIndex_inj cfg hx hpx e).1.symm, (pixelIndex_inj cfg hx hpx e).2.symm⟩
      have : (decide (px = x) && decide (py = y)) = false := by simpa using fun h1 h2 => he ⟨h1, h2⟩
      simp [pixel, List.getD_eq_getElem?_getD, hne, Bool.and_assoc, this]
  · have : (bit && decide (px = x) && decide (py = y)) = false := by
      by_contra hc
      simp only [Bool.not_eq_false, Bool.and_eq_true, decide_eq_true_eq] at hc
      exact h ⟨hc.1.1, hc.1.2 ▸ hpx, hc.2 ▸ hpy⟩
    simp [this]

theorem drawPixel_hit (cfg : Config) (x y : Nat) (bit : Bool) (c : Canvas) :
    (drawPixel cfg x y bit c).hit = true ↔
      c.hit = true ∨ bit = true ∧ x < cfg.width ∧ y < cfg.height ∧ pixel cfg c.fb x y = true := by
  unfold drawPixel
  split_ifs with h
  · simp [h.1, h.2.1, h.2.2]
  · constructor
    · exact .inl
    · rintro (hc | ⟨h1, h2, h3, -⟩)
      · exact hc
      · exact (h ⟨h1, h2, h3⟩).elim

/-- Whether one sprite row's byte, with its leftmost column at `x0` on screen row `y`, has a set bit among its first `count`
columns at (px, py). -/
def rowCovers (row : Byte) (x0 y count px py : Nat) : Bool :=
  decide (py = y) && decide (x0 ≤ px) && decide (px < x0 + count) && row.getLsbD (7 - (px - x0))

theorem drawColumns_length (cfg : Config) (row : Byte) (x0 y count : Nat) (c : Canvas) :
    (drawColumns cfg row x0 y count c).fb.length = c.fb.length := by
  induction count with
  | zero => rfl
  | succ n ih => rw [drawColumns, drawPixel_length, ih]

theorem pixel_drawColumns (cfg : Config) (row : Byte) (x0 y count : Nat) (c : Canvas)
    (hlen : c.fb.length = cfg.width * cfg.height) (px py : Nat) (hpx : px < cfg.width) (hpy : py < cfg.height) :
    pixel cfg (drawColumns cfg row x0 y count c).fb px py = (pixel cfg c.fb px py ^^ rowCovers row x0 y count px py) := by
  induction count with
  | zero =>
    have : rowCovers row x0 y 0 px py = false := by
      simp only [rowCovers, Nat.add_zero, Bool.and_eq_false_iff, decide_eq_false_iff_not]
      omega
    simp [drawColumns, this]
  | succ n ih =>
    rw [drawColumns, pixel_drawPixel _ _ _ _ _ (by rw [drawColumns_length, hlen]) _ _ hpx hpy, ih, Bool.xor_assoc]
    congr 1
    by_cases hy : py = y
    · subst hy
      by_cases hx : px = x0 + n
      · subst hx
        simp [rowCovers]
      · have : decide (px < x0 + (n + 1)) = decide (px < x0 + n) := by
          rw [decide_eq_decide]
          omega
        simp [rowCovers, hx, this]
    · simp [rowCovers, hy]

theorem drawColumns_hit (cfg : Config) (row : Byte) (x0 y count : Nat) (c : Canvas)
    (hlen : c.fb.length = cfg.width * cfg.height) :
    (drawColumns cfg row x0 y count c).hit = true ↔
      c.hit = true ∨ ∃ px py, px < cfg.width ∧ py < cfg.height ∧ rowCovers row x0 y count px py = true ∧
        pixel cfg c.fb px py = true := by
  induction count with
  | zero =>
    simp only [drawColumns, rowCovers, Nat.add_zero, Bool.and_eq_true, decide_eq_true_eq]
    constructor
    · exact .inl
    · rintro (h | ⟨px, py, -, -, h, -⟩)
      · exact h
      · omega
  | succ n ih =>
    rw [drawColumns, drawPixel_hit, ih]
    constructor
    · rintro ((h | ⟨px, py, hx, hy, hc, hp⟩) | ⟨hb, hx, hy, hp⟩)
      · exact .inl h
      · refine .inr ⟨px, py, hx, hy, ?_, hp⟩
        simp only [rowCovers, Bool.and_eq_true, decide_eq_true_eq] at hc ⊢
        exact ⟨⟨hc.1.1, by omega⟩, hc.2⟩
      · rw [pixel_drawColumns _ _ _ _ _ _ hlen _ _ hx hy] at hp
        refine .inr ⟨x0 + n, y, hx, hy, by simp [rowCovers, hb], ?_⟩
        simpa [rowCovers] using hp
    · rintro (h | ⟨px, py, hx, hy, hc, hp⟩)
      · exact .inl (.inl h)
      · by_cases hpn : px = x0 + n
        · simp only [rowCovers, Bool.and_eq_true, decide_eq_true_eq] at hc
          obtain ⟨⟨⟨rfl, -⟩, -⟩, hb⟩ := hc
          subst hpn
          refine .inr ⟨by simpa using hb, hx, hy, ?_⟩
          rw [pixel_drawColumns _ _ _ _ _ _ hlen _ _ hx hy]
          simp [rowCovers, hp]
        · refine .inl (.inr ⟨px, py, hx, hy, ?_, hp⟩)
          simp only [rowCovers, Bool.and_eq_true, decide_eq_true_eq] at hc ⊢
          exact ⟨⟨hc.1.1, by omega⟩, hc.2⟩

theorem drawRows_length (s : State) (x0 y0 count : Nat) (c : Canvas) :
    (drawRows s x0 y0 count c).fb.length = c.fb.length := by
  induction count with
  | zero => rfl
  | succ n ih => rw [drawRows, drawColumns_length, ih]

/-- One more sprite row covers what the rows before it cover, and its own screen row. -/
theorem spriteCovers_succ (s : State) (x0 y0 n px py : Nat) :
    spriteCovers s x0 y0 (n + 1) px py =
      (spriteCovers s x0 y0 n px py ^^ rowCovers (s.readMem (s.i.toNat + n)) x0 (y0 + n) 8 px py) := by
  by_cases hy : py = y0 + n
  · subst hy
    simp [spriteCovers, rowCovers]
  · have : decide (py < y0 + (n + 1)) = decide (py < y0 + n) := by
      rw [decide_eq_decide]
      omega
    simp [spriteCovers, rowCovers, hy, this]

/-- A draw flips exactly the pixels inside the screen that the sprite covers (43_display.md R67, R68). -/
theorem pixel_drawRows (s : State) (x0 y0 count : Nat) (c : Canvas)
    (hlen : c.fb.length = s.cfg.width * s.cfg.height) (px py : Nat) (hpx : px < s.cfg.width) (hpy : py < s.cfg.height) :
    pixel s.cfg (drawRows s x0 y0 count c).fb px py =
      (pixel s.cfg c.fb px py ^^ spriteCovers s x0 y0 count px py) := by
  induction count with
  | zero =>
    have : spriteCovers s x0 y0 0 px py = false := by
      rw [spriteCovers]
      by_cases h : y0 ≤ py
      · have : ¬py < y0 := by omega
        simp [this]
      · simp [h]
    simp [drawRows, this]
  | succ n ih =>
    rw [drawRows, pixel_drawColumns _ _ _ _ _ _ (by rw [drawRows_length, hlen]) _ _ hpx hpy, ih, Bool.xor_assoc,
      spriteCovers_succ]

/-- A draw notes a collision when a pixel it flips was on (43_display.md R69). -/
theorem drawRows_hit (s : State) (x0 y0 count : Nat) (c : Canvas)
    (hlen : c.fb.length = s.cfg.width * s.cfg.height) :
    (drawRows s x0 y0 count c).hit = true ↔
      c.hit = true ∨ ∃ px py, px < s.cfg.width ∧ py < s.cfg.height ∧ spriteCovers s x0 y0 count px py = true ∧
        pixel s.cfg c.fb px py = true := by
  induction count with
  | zero =>
    simp only [drawRows, spriteCovers, Nat.add_zero, Bool.and_eq_true, decide_eq_true_eq]
    constructor
    · exact .inl
    · rintro (h | ⟨px, py, -, -, h, -⟩)
      · exact h
      · omega
  | succ n ih =>
    rw [drawRows, drawColumns_hit _ _ _ _ _ _ (by rw [drawRows_length, hlen]), ih]
    have hfresh : ∀ px py, px < s.cfg.width → py < s.cfg.height → py = y0 + n →
        pixel s.cfg (drawRows s x0 y0 n c).fb px py = pixel s.cfg c.fb px py := by
      intro px py hx hy he
      have : spriteCovers s x0 y0 n px py = false := by simp [spriteCovers, he]
      rw [pixel_drawRows _ _ _ _ _ hlen _ _ hx hy, this, Bool.xor_false]
    constructor
    · rintro ((h | ⟨px, py, hx, hy, hc, hp⟩) | ⟨px, py, hx, hy, hc, hp⟩)
      · exact .inl h
      · refine .inr ⟨px, py, hx, hy, ?_, hp⟩
        simp only [spriteCovers, Bool.and_eq_true, decide_eq_true_eq] at hc ⊢
        exact ⟨⟨hc.1.1, by omega⟩, hc.2⟩
      · have he : py = y0 + n := by
          simp only [rowCovers, Bool.and_eq_true, decide_eq_true_eq] at hc
          exact hc.1.1.1
        rw [hfresh px py hx hy he] at hp
        refine .inr ⟨px, py, hx, hy, ?_, hp⟩
        have hn : py - y0 = n := by omega
        simp only [rowCovers, spriteCovers, Bool.and_eq_true, decide_eq_true_eq, hn] at hc ⊢
        exact ⟨⟨⟨⟨hc.1.1.2, hc.1.2⟩, by omega⟩, by omega⟩, hc.2⟩
    · rintro (h | ⟨px, py, hx, hy, hc, hp⟩)
      · exact .inl (.inl h)
      · by_cases he : py = y0 + n
        · refine .inr ⟨px, py, hx, hy, ?_, by rw [hfresh px py hx hy he]; exact hp⟩
          have hn : py - y0 = n := by omega
          simp only [rowCovers, spriteCovers, Bool.and_eq_true, decide_eq_true_eq, hn] at hc ⊢
          exact ⟨⟨⟨he, hc.1.1.1.1⟩, hc.1.1.1.2⟩, hc.2⟩
        · refine .inl (.inr ⟨px, py, hx, hy, ?_, hp⟩)
          simp only [spriteCovers, Bool.and_eq_true, decide_eq_true_eq] at hc ⊢
          exact ⟨⟨hc.1.1, by omega⟩, hc.2⟩

end Sys2Proof.Machine
end

