-- ==== Sys2Proof/Laws/HostOps.lean ====
section
/-! SUPPORT. The host's operations field by field, and the run's defining equations. -/

namespace Sys2Proof.Machine

variable (s : State)

/-! `tickBoundary` writes `dt`, `st` and `drewThisTick` alone. -/

@[simp] theorem tickBoundary_cfg : (tickBoundary s).cfg = s.cfg := rfl
@[simp] theorem tickBoundary_v : (tickBoundary s).v = s.v := rfl
@[simp] theorem tickBoundary_i : (tickBoundary s).i = s.i := rfl
@[simp] theorem tickBoundary_pc : (tickBoundary s).pc = s.pc := rfl
@[simp] theorem tickBoundary_dt : (tickBoundary s).dt = countDown s.dt := rfl
@[simp] theorem tickBoundary_st : (tickBoundary s).st = countDown s.st := rfl
@[simp] theorem tickBoundary_keys : (tickBoundary s).keys = s.keys := rfl
@[simp] theorem tickBoundary_fb : (tickBoundary s).fb = s.fb := rfl
@[simp] theorem tickBoundary_mem : (tickBoundary s).mem = s.mem := rfl
@[simp] theorem tickBoundary_stack : (tickBoundary s).stack = s.stack := rfl
@[simp] theorem tickBoundary_dirty : (tickBoundary s).dirty = s.dirty := rfl
@[simp] theorem tickBoundary_drewThisTick : (tickBoundary s).drewThisTick = false := rfl
@[simp] theorem tickBoundary_outcome : (tickBoundary s).outcome = s.outcome := rfl
@[simp] theorem tickBoundary_log : (tickBoundary s).log = s.log := rfl
@[simp] theorem tickBoundary_randDraws : (tickBoundary s).randDraws = s.randDraws := rfl

/-! `clearDirty` writes `dirty` alone. -/

@[simp] theorem clearDirty_cfg : (clearDirty s).cfg = s.cfg := rfl
@[simp] theorem clearDirty_v : (clearDirty s).v = s.v := rfl
@[simp] theorem clearDirty_i : (clearDirty s).i = s.i := rfl
@[simp] theorem clearDirty_pc : (clearDirty s).pc = s.pc := rfl
@[simp] theorem clearDirty_dt : (clearDirty s).dt = s.dt := rfl
@[simp] theorem clearDirty_st : (clearDirty s).st = s.st := rfl
@[simp] theorem clearDirty_keys : (clearDirty s).keys = s.keys := rfl
@[simp] theorem clearDirty_fb : (clearDirty s).fb = s.fb := rfl
@[simp] theorem clearDirty_mem : (clearDirty s).mem = s.mem := rfl
@[simp] theorem clearDirty_stack : (clearDirty s).stack = s.stack := rfl
@[simp] theorem clearDirty_dirty : (clearDirty s).dirty = false := rfl
@[simp] theorem clearDirty_drewThisTick : (clearDirty s).drewThisTick = s.drewThisTick := rfl
@[simp] theorem clearDirty_outcome : (clearDirty s).outcome = s.outcome := rfl
@[simp] theorem clearDirty_log : (clearDirty s).log = s.log := rfl
@[simp] theorem clearDirty_randDraws : (clearDirty s).randDraws = s.randDraws := rfl

/-! Counting down, the read-out, the drain and the run. -/

/-- One tick boundary: one less, and never below zero. -/
theorem countDown_toNat (b : Byte) : (countDown b).toNat = b.toNat - 1 := by
  unfold countDown
  split
  · subst_vars
    rfl
  · rename_i h
    have := b.isLt
    have : b.toNat ≠ 0 := fun e => h (BitVec.eq_of_toNat_eq e)
    rw [BitVec.toNat_sub, BitVec.toNat_ofNat]
    omega

/-- The read-out changes `dirty` alone, and leaves it clear. -/
theorem readOut_snd : (readOut s).2 = { s with dirty := false } := by
  cases h : s.dirty
  · have : ({ s with dirty := false } : State) = s := by rw [← h]
    simp [readOut, readFramebuffer, h, this]
  · simp [readOut, readFramebuffer, h, clearDirty]

/-- The read-out pushes the image exactly if `dirty`. -/
theorem readOut_fst : (readOut s).1 = if s.dirty then some s.fb else none := by
  cases h : s.dirty <;> simp [readOut, readFramebuffer, h]

@[simp] theorem Drained.state_running : (Drained.running s).state = s := rfl
@[simp] theorem Drained.state_ended : (Drained.ended s).state = s := rfl

@[simp] theorem runTicks_nil : runTicks [] s = { images := [], last := .running s } := rfl
@[simp] theorem runTicks_cons (pending : List (List InputEvent)) (later : List (List (List InputEvent))) :
    runTicks (pending :: later) s = (tick pending s).andThen (runTicks later) := rfl

@[simp] theorem TickResult.andThen_ended (rest : State → RunResult) :
    (TickResult.ended s).andThen rest = { images := [], last := .ended s } := rfl
@[simp] theorem TickResult.andThen_ticked (rest : State → RunResult) (pushed : Option (List Bool)) :
    (TickResult.ticked pushed s).andThen rest =
      { images := pushed.toList ++ (rest s).images, last := (rest s).last } := rfl

end Sys2Proof.Machine
end

