-- ==== Sys2Proof/Laws/PerInstr.lean ====
section
/-! SUPPORT. Per instruction: the encoder's word matches the instruction's row of spec/opcode_table.json (30_encoding.md R31). -/

namespace Sys2Proof

theorem formatA_and_mask (f : Nibble) (nnn : Addr12) : formatA f nnn &&& 0xF000#16 = formatA f 0#12 := by
  have h : formatA f nnn &&& (0xF#4 ++ 0x000#12) = (f &&& 0xF#4) ++ (nnn &&& 0x000#12) := BitVec.and_append
  have h1 : f &&& 0xF#4 = f := BitVec.and_allOnes
  rw [h1, BitVec.and_zero] at h
  exact h

theorem formatXK_eq_formatA (f : Nibble) (x : Reg) (nn : Byte) : formatXK f x nn = formatA f (x ++ nn) := by
  apply BitVec.eq_of_toNat_eq
  rw [toNat_formatXK, toNat_formatA, toNat_append_eq]
  omega

theorem formatXYN_eq_formatXK (f : Nibble) (x y : Reg) (n : Nibble) : formatXYN f x y n = formatXK f x (y ++ n) := by
  apply BitVec.eq_of_toNat_eq
  rw [toNat_formatXYN, toNat_formatXK, toNat_append_eq]
  omega

theorem formatXK_and_mask (f : Nibble) (x : Reg) (nn : Byte) : formatXK f x nn &&& 0xF0FF#16 = formatXK f 0#4 nn := by
  have h : formatXK f x nn &&& (0xF#4 ++ 0x0#4 ++ 0xFF#8) = ((f &&& 0xF#4) ++ (x &&& 0x0#4)) ++ (nn &&& 0xFF#8) := by
    rw [← BitVec.and_append, ← BitVec.and_append]
    rfl
  have h1 : f &&& 0xF#4 = f := BitVec.and_allOnes
  have h2 : nn &&& 0xFF#8 = nn := BitVec.and_allOnes
  rw [h1, h2, BitVec.and_zero] at h
  exact h

theorem formatXYN_and_mask (f : Nibble) (x y : Reg) (n : Nibble) :
    formatXYN f x y n &&& 0xF00F#16 = formatXYN f 0#4 0#4 n := by
  have h : formatXYN f x y n &&& (0xF#4 ++ 0x0#4 ++ 0x0#4 ++ 0xF#4) =
      (((f &&& 0xF#4) ++ (x &&& 0x0#4)) ++ (y &&& 0x0#4)) ++ (n &&& 0xF#4) := by
    rw [← BitVec.and_append, ← BitVec.and_append, ← BitVec.and_append]
    rfl
  have h1 : f &&& 0xF#4 = f := BitVec.and_allOnes
  have h2 : n &&& 0xF#4 = n := BitVec.and_allOnes
  rw [h1, h2, BitVec.and_zero, BitVec.and_zero] at h
  exact h

end Sys2Proof

namespace Sys2Proof.Laws.OpcodeRow

/-- The encoder's word, under the row's mask, is the row's pattern. -/
def Statement (i : Instr) : Prop := encode i &&& i.row.mask = i.row.pattern

theorem cls : Statement .cls := by unfold Statement; decide
theorem ret : Statement .ret := by unfold Statement; decide
theorem jp (nnn : Addr12) : Statement (.jp nnn) := formatA_and_mask _ _
theorem call (nnn : Addr12) : Statement (.call nnn) := formatA_and_mask _ _
theorem seImm (x : Reg) (nn : Byte) : Statement (.seImm x nn) :=
  (congrArg (· &&& 0xF000#16) (formatXK_eq_formatA _ x nn)).trans (formatA_and_mask _ _)
theorem sneImm (x : Reg) (nn : Byte) : Statement (.sneImm x nn) :=
  (congrArg (· &&& 0xF000#16) (formatXK_eq_formatA _ x nn)).trans (formatA_and_mask _ _)
theorem seReg (x y : Reg) : Statement (.seReg x y) := formatXYN_and_mask _ _ _ _
theorem ldImm (x : Reg) (nn : Byte) : Statement (.ldImm x nn) :=
  (congrArg (· &&& 0xF000#16) (formatXK_eq_formatA _ x nn)).trans (formatA_and_mask _ _)
theorem addImm (x : Reg) (nn : Byte) : Statement (.addImm x nn) :=
  (congrArg (· &&& 0xF000#16) (formatXK_eq_formatA _ x nn)).trans (formatA_and_mask _ _)
theorem ldReg (x y : Reg) : Statement (.ldReg x y) := formatXYN_and_mask _ _ _ _
theorem orReg (x y : Reg) : Statement (.orReg x y) := formatXYN_and_mask _ _ _ _
theorem andReg (x y : Reg) : Statement (.andReg x y) := formatXYN_and_mask _ _ _ _
theorem xorReg (x y : Reg) : Statement (.xorReg x y) := formatXYN_and_mask _ _ _ _
theorem addReg (x y : Reg) : Statement (.addReg x y) := formatXYN_and_mask _ _ _ _
theorem subReg (x y : Reg) : Statement (.subReg x y) := formatXYN_and_mask _ _ _ _
theorem shr (x y : Reg) : Statement (.shr x y) := formatXYN_and_mask _ _ _ _
theorem subn (x y : Reg) : Statement (.subn x y) := formatXYN_and_mask _ _ _ _
theorem shl (x y : Reg) : Statement (.shl x y) := formatXYN_and_mask _ _ _ _
theorem sneReg (x y : Reg) : Statement (.sneReg x y) := formatXYN_and_mask _ _ _ _
theorem ldI (nnn : Addr12) : Statement (.ldI nnn) := formatA_and_mask _ _
theorem jpV0 (x : Reg) (nnn : Addr12) : Statement (.jpV0 x nnn) := formatA_and_mask _ _
theorem rnd (x : Reg) (nn : Byte) : Statement (.rnd x nn) :=
  (congrArg (· &&& 0xF000#16) (formatXK_eq_formatA _ x nn)).trans (formatA_and_mask _ _)
theorem drw (x y : Reg) (n : Nibble) : Statement (.drw x y n) :=
  (congrArg (· &&& 0xF000#16) ((formatXYN_eq_formatXK _ x y n).trans (formatXK_eq_formatA _ _ _))).trans (formatA_and_mask _ _)
theorem skp (x : Reg) : Statement (.skp x) := formatXK_and_mask _ _ _
theorem sknp (x : Reg) : Statement (.sknp x) := formatXK_and_mask _ _ _
theorem ldVxDt (x : Reg) : Statement (.ldVxDt x) := formatXK_and_mask _ _ _
theorem ldVxK (x : Reg) : Statement (.ldVxK x) := formatXK_and_mask _ _ _
theorem ldDtVx (x : Reg) : Statement (.ldDtVx x) := formatXK_and_mask _ _ _
theorem ldStVx (x : Reg) : Statement (.ldStVx x) := formatXK_and_mask _ _ _
theorem addI (x : Reg) : Statement (.addI x) := formatXK_and_mask _ _ _
theorem ldF (x : Reg) : Statement (.ldF x) := formatXK_and_mask _ _ _
theorem ldB (x : Reg) : Statement (.ldB x) := formatXK_and_mask _ _ _
theorem ldMemVx (x : Reg) : Statement (.ldMemVx x) := formatXK_and_mask _ _ _
theorem ldVxMem (x : Reg) : Statement (.ldVxMem x) := formatXK_and_mask _ _ _

end Sys2Proof.Laws.OpcodeRow
end

