-- ==== Sys2Proof/Tests/Slice0.lean ====
section
/-! SUPPORT. The model's own tests: the words of the opcode table written out bit by bit, one or two single steps per instruction
with results from 95_test_vectors.md (W and V tables) and the rules' own examples, and a witness for the hypotheses of every
statement of Certificates/Slice0/Obligations.lean. -/

namespace Sys2Proof.Tests

set_option Elab.async false

open Sys2Proof.Machine

/-! ## Helpers -/

/-- The reset state after `f`, with the word `w` where the next step fetches. -/
def prep (w : Nat) (f : State → State) : State := (f State.reset).withFetchWord 16 w

/-- Whether one step answers a next state with the property `p`. -/
def after (s : State) (p : State → Bool) : Bool :=
  match step s with
  | .next t => p t
  | .fault _ => false
  | .refused _ => false

/-- Whether an instruction's execution answers a next state with the property `p`. -/
def afterExec (r : StepResult) (p : State → Bool) : Bool :=
  match r with
  | .next t => p t
  | .fault _ => false
  | .refused _ => false

/-- The state with other quirk toggles. -/
def withQuirks (q : Quirks) (s : State) : State := { s with cfg := { s.cfg with quirks := q } }

/-- The pixels that are on, as row-major indices: pixel (x, y) of the 64-wide screen is `y * 64 + x`. -/
def lit (s : State) : List Nat := (s.fb.zipIdx.filter Prod.fst).map Prod.snd

/-- The state with pixel (x, y) of the 64-wide screen on. -/
def turnOn (x y : Nat) (s : State) : State := { s with fb := s.fb.set (y * 64 + x) true }

/-- A stack of sixteen entries: full at the default depth. -/
def fullStack : List Word := List.replicate 16 0x206#16

/-! ## WellFormed -/

/-- BNNN's `x` must be the top four bits of `nnn` (40_control_flow.md R44). -/
theorem test_illformed_jpV0_refused :
    Instr.wellFormed (.jpV0 0#4 0x300#12) = false ∧ Instr.wellFormed (.jpV0 3#4 0x300#12) = true := by decide

/-! ## Decode: every row's word, written out from its encoding (30_encoding.md R31) -/

theorem test_decode_cls : decode [0b00000000#8, 0b11100000#8] = .ok .cls := by decide
theorem test_decode_ret : decode [0b00000000#8, 0b11101110#8] = .ok .ret := by decide
theorem test_decode_jp : decode [0b00010010#8, 0b00110100#8] = .ok (.jp 0x234#12) := by decide
theorem test_decode_call : decode [0b00101111#8, 0b11111110#8] = .ok (.call 0xFFE#12) := by decide
theorem test_decode_seImm : decode [0b00110001#8, 0b01000010#8] = .ok (.seImm 1#4 0x42#8) := by decide
theorem test_decode_sneImm : decode [0b01000001#8, 0b01000011#8] = .ok (.sneImm 1#4 0x43#8) := by decide
theorem test_decode_seReg : decode [0b01010001#8, 0b00100000#8] = .ok (.seReg 1#4 2#4) := by decide
theorem test_decode_ldImm : decode [0b01100011#8, 0b01000101#8] = .ok (.ldImm 3#4 0x45#8) := by decide
theorem test_decode_addImm : decode [0b01110010#8, 0b00000001#8] = .ok (.addImm 2#4 0x01#8) := by decide
theorem test_decode_ldReg : decode [0b10001010#8, 0b10110000#8] = .ok (.ldReg 10#4 11#4) := by decide
theorem test_decode_orReg : decode [0b10001010#8, 0b10110001#8] = .ok (.orReg 10#4 11#4) := by decide
theorem test_decode_andReg : decode [0b10001010#8, 0b10110010#8] = .ok (.andReg 10#4 11#4) := by decide
theorem test_decode_xorReg : decode [0b10001010#8, 0b10110011#8] = .ok (.xorReg 10#4 11#4) := by decide
theorem test_decode_addReg : decode [0b10001010#8, 0b10110100#8] = .ok (.addReg 10#4 11#4) := by decide
theorem test_decode_subReg : decode [0b10001010#8, 0b10110101#8] = .ok (.subReg 10#4 11#4) := by decide
theorem test_decode_shr : decode [0b10001010#8, 0b10110110#8] = .ok (.shr 10#4 11#4) := by decide
theorem test_decode_subn : decode [0b10001010#8, 0b10110111#8] = .ok (.subn 10#4 11#4) := by decide
theorem test_decode_shl : decode [0b10000100#8, 0b00011110#8] = .ok (.shl 4#4 1#4) := by decide
theorem test_decode_sneReg : decode [0b10010001#8, 0b00100000#8] = .ok (.sneReg 1#4 2#4) := by decide
theorem test_decode_ldI : decode [0b10100011#8, 0b00000001#8] = .ok (.ldI 0x301#12) := by decide
theorem test_decode_jpV0 : decode [0b10110011#8, 0b00000001#8] = .ok (.jpV0 3#4 0x301#12) := by decide
theorem test_decode_rnd : decode [0b11000011#8, 0b00001111#8] = .ok (.rnd 3#4 0x0F#8) := by decide
theorem test_decode_drw : decode [0b11010001#8, 0b00100101#8] = .ok (.drw 1#4 2#4 5#4) := by decide
theorem test_decode_skp : decode [0b11100010#8, 0b10011110#8] = .ok (.skp 2#4) := by decide
theorem test_decode_sknp : decode [0b11100010#8, 0b10100001#8] = .ok (.sknp 2#4) := by decide
theorem test_decode_ldVxDt : decode [0b11110011#8, 0b00000111#8] = .ok (.ldVxDt 3#4) := by decide
theorem test_decode_ldVxK : decode [0b11110001#8, 0b00001010#8] = .ok (.ldVxK 1#4) := by decide
theorem test_decode_ldDtVx : decode [0b11110101#8, 0b00010101#8] = .ok (.ldDtVx 5#4) := by decide
theorem test_decode_ldStVx : decode [0b11110100#8, 0b00011000#8] = .ok (.ldStVx 4#4) := by decide
theorem test_decode_addI : decode [0b11110011#8, 0b00011110#8] = .ok (.addI 3#4) := by decide
theorem test_decode_ldF : decode [0b11110110#8, 0b00101001#8] = .ok (.ldF 6#4) := by decide
theorem test_decode_ldB : decode [0b11111010#8, 0b00110011#8] = .ok (.ldB 10#4) := by decide
theorem test_decode_ldMemVx : decode [0b11111111#8, 0b01010101#8] = .ok (.ldMemVx 15#4) := by decide
theorem test_decode_ldVxMem : decode [0b11110010#8, 0b01100101#8] = .ok (.ldVxMem 2#4) := by decide

/-- The failing words of V1, and the host's numbering of a word's bits. -/
theorem test_decode_failures :
    [0x0000, 0x0123, 0x00E1, 0x5121, 0x9011, 0x8008, 0x800F, 0x8AB9, 0xE09F, 0xF000, 0xF0FF].all
      (fun w => decodeTableWord 16 w == none) = true ∧
    decodeTableWord 16 0x6345 = some (.ldImm 3#4 0x45#8) := by decide

/-! ## Control transfer (W1, V2) -/

theorem test_cls : after (prep 0x00E0 fun s => { turnOn 3 3 s with drewThisTick := true }) fun t =>
    lit t == [] && t.dirty && t.drewThisTick && t.pc == 0x202#16 && t.outcome == some .advanced := by decide +kernel
theorem test_ret : after (prep 0x00EE fun s => { s with pc := 0x212#16, stack := [0x206#16] }) fun t =>
    t.pc == 0x206#16 && t.stack == [] && t.log == [] && t.outcome == some .advanced := by decide +kernel
theorem test_ret_underflow : after (prep 0x00EE id) fun t =>
    t.pc == 0x202#16 && t.stack == [] && t.log == [.stackUnderflow 0x200#16] && t.outcome == some .advanced := by decide +kernel
theorem test_jp : after (prep 0x1234 id) fun t => t.pc == 0x234#16 && t.outcome == some .advanced := by decide +kernel
theorem test_call_overflow : after (prep 0x2300 fun s => { s with pc := 0x240#16, stack := fullStack }) fun t =>
    t.pc == 0x242#16 && t.stack == fullStack && t.log == [.stackOverflow 0x240#16] && t.outcome == some .advanced := by
  decide +kernel
theorem test_call_at_the_end : after (prep 0x2FFE fun s => { s with pc := 0xFFE#16 }) fun t =>
    t.pc == 0xFFE#16 && t.stack == [0x1000#16] && t.log == [] := by decide +kernel
theorem test_seImm_taken : after (prep 0x3142 (·.setV 1#4 0x42#8)) fun t => t.pc == 0x204#16 := by decide +kernel
theorem test_seImm_not_taken : after (prep 0x3143 (·.setV 1#4 0x42#8)) fun t => t.pc == 0x202#16 := by decide +kernel
theorem test_sneImm_taken : after (prep 0x4143 (·.setV 1#4 0x42#8)) fun t => t.pc == 0x204#16 := by decide +kernel
theorem test_seReg_same : after (prep 0x5110 id) fun t => t.pc == 0x204#16 := by decide +kernel
theorem test_sneReg_same : after (prep 0x9110 id) fun t => t.pc == 0x202#16 := by decide +kernel
theorem test_sneReg_taken : after (prep 0x9010 fun s => (s.setV 0#4 1#8).setV 1#4 2#8) fun t => t.pc == 0x204#16 := by
  decide +kernel
theorem test_jpV0_unmasked : after (prep 0xBFFF (·.setV 0#4 0xFF#8)) fun t => t.pc == 0x10FE#16 := by decide +kernel
theorem test_jpV0_quirk : after (prep 0xB300 fun s =>
      withQuirks { jumpWOffsetUseVx := true } ((s.setV 0#4 2#8).setV 3#4 0x10#8)) fun t =>
    t.pc == 0x310#16 := by decide +kernel

/-! ## Arithmetic and logic (W3 to W6, V3) -/

theorem test_ldImm : after (prep 0x6345 id) fun t => t.getV 3#4 == 0x45#8 && t.pc == 0x202#16 := by decide +kernel
theorem test_addImm_wraps : after (prep 0x72F0 fun s => (s.setV 2#4 0x10#8).setV VF 0x55#8) fun t =>
    t.getV 2#4 == 0x00#8 && t.getV VF == 0x55#8 := by decide +kernel
theorem test_ldReg : after (prep 0x8010 (·.setV 1#4 0x42#8)) fun t =>
    t.getV 0#4 == 0x42#8 && t.getV 1#4 == 0x42#8 := by decide +kernel
theorem test_ldReg_reset : after (prep 0x80F0 fun s => withQuirks { logicOpsResetVf := true } (s.setV VF 7#8)) fun t =>
    t.getV 0#4 == 7#8 && t.getV VF == 0#8 := by decide +kernel
theorem test_orReg : after (prep 0x8011 fun s => ((s.setV 0#4 0x0F#8).setV 1#4 0xF0#8).setV VF 1#8) fun t =>
    t.getV 0#4 == 0xFF#8 && t.getV VF == 1#8 := by decide +kernel
theorem test_orReg_reset : after (prep 0x8F11 fun s =>
      withQuirks { logicOpsResetVf := true } ((s.setV VF 1#8).setV 1#4 2#8)) fun t =>
    t.getV VF == 0#8 := by decide +kernel
theorem test_andReg : after (prep 0x8012 fun s => (s.setV 0#4 0x3C#8).setV 1#4 0x0F#8) fun t =>
    t.getV 0#4 == 0x0C#8 := by decide +kernel
theorem test_xorReg : after (prep 0x8013 fun s => (s.setV 0#4 0xFF#8).setV 1#4 0x0F#8) fun t =>
    t.getV 0#4 == 0xF0#8 := by decide +kernel
theorem test_addReg_doubles : after (prep 0x8004 (·.setV 0#4 0x90#8)) fun t =>
    t.getV 0#4 == 0x20#8 && t.getV VF == 1#8 := by decide +kernel
theorem test_addReg_into_VF : after (prep 0x8F14 fun s => (s.setV VF 0xFF#8).setV 1#4 0x01#8) fun t =>
    t.getV VF == 1#8 := by decide +kernel
theorem test_subReg_borrow : after (prep 0x8015 fun s => (s.setV 0#4 5#8).setV 1#4 7#8) fun t =>
    t.getV 0#4 == 0xFE#8 && t.getV VF == 0#8 := by decide +kernel
theorem test_subReg_equal : after (prep 0x8015 fun s => (s.setV 0#4 0x33#8).setV 1#4 0x33#8) fun t =>
    t.getV 0#4 == 0#8 && t.getV VF == 1#8 := by decide +kernel
theorem test_shr : after (prep 0x8016 fun s => (s.setV 0#4 0x81#8).setV 1#4 0x03#8) fun t =>
    t.getV 0#4 == 0x40#8 && t.getV VF == 1#8 := by decide +kernel
theorem test_shr_quirk_off : after (prep 0x8016 fun s =>
      withQuirks { shiftIgnoreVy := false } ((s.setV 0#4 0xFF#8).setV 1#4 0x02#8)) fun t =>
    t.getV 0#4 == 0x01#8 && t.getV VF == 0#8 := by decide +kernel
theorem test_subn_borrow : after (prep 0x8017 fun s => (s.setV 0#4 7#8).setV 1#4 5#8) fun t =>
    t.getV 0#4 == 0xFE#8 && t.getV VF == 0#8 := by decide +kernel
theorem test_subn : after (prep 0x8017 fun s => (s.setV 0#4 5#8).setV 1#4 7#8) fun t =>
    t.getV 0#4 == 0x02#8 && t.getV VF == 1#8 := by decide +kernel
theorem test_shl : after (prep 0x841E fun s => (s.setV 4#4 0x81#8).setV 1#4 0x40#8) fun t =>
    t.getV 4#4 == 0x02#8 && t.getV VF == 1#8 := by decide +kernel
theorem test_shl_quirk_off : after (prep 0x841E fun s =>
      withQuirks { shiftIgnoreVy := false } ((s.setV 4#4 0x81#8).setV 1#4 0x40#8)) fun t =>
    t.getV 4#4 == 0x80#8 && t.getV VF == 0#8 := by decide +kernel

/-- The masks of V3's CXNN rows, with the byte the source supplies given. -/
theorem test_rnd_masks :
    afterExec (rndWith 0xA7#8 3#4 0x0F#8 State.reset) (fun t => t.getV 3#4 == 0x07#8) ∧
    afterExec (rndWith 0xFF#8 3#4 0x00#8 State.reset) (fun t => t.getV 3#4 == 0#8 && t.randDraws == 1) := by decide +kernel

/-! ## Index register, font, BCD, block store and load (V4, W10, W11) -/

theorem test_ldI : after (prep 0xAFFF id) fun t => t.i == 0xFFF#16 := by decide +kernel
theorem test_addI_wraps : after (prep 0xFF1E fun s => { s.setV VF 0x20#8 with i := 0xFF0#16 }) fun t =>
    t.i == 0x010#16 && t.getV VF == 1#8 := by decide +kernel
theorem test_addI_no_wrap : after (prep 0xF01E fun s => { (s.setV 0#4 1#8).setV VF 7#8 with i := 0xFFE#16 }) fun t =>
    t.i == 0xFFF#16 && t.getV VF == 7#8 := by decide +kernel
theorem test_ldF : after (prep 0xF029 (·.setV 0#4 0x1A#8)) fun t => t.i == 0x82#16 := by decide +kernel
theorem test_ldB_wraps : after (prep 0xF033 fun s => { s.setV 0#4 123#8 with i := 0xFFF#16 }) fun t =>
    t.readMem 0xFFF == 1#8 && t.readMem 0 == 2#8 && t.readMem 1 == 3#8 && t.i == 0xFFF#16 := by decide +kernel
theorem test_ldMemVx : after (prep 0xF255 fun s =>
      { ((s.setV 0#4 11#8).setV 1#4 13#8).setV 2#4 15#8 with i := 0x300#16 }) fun t =>
    t.readMem 0x300 == 11#8 && t.readMem 0x301 == 13#8 && t.readMem 0x302 == 15#8 && t.readMem 0x303 == 0#8 &&
      t.i == 0x300#16 := by decide +kernel
theorem test_ldMemVx_quirk : after (prep 0xFF55 fun s =>
      withQuirks { storeLoadMemUseI := true } { (s.setV 0#4 0x10#8).setV VF 0x1F#8 with i := 0xFF8#16 }) fun t =>
    t.readMem 0xFF8 == 0x10#8 && t.readMem 0x007 == 0x1F#8 && t.i == 0x008#16 := by decide +kernel
theorem test_ldVxMem_quirk : after (prep 0xF265 fun s =>
      withQuirks { storeLoadMemUseI := true } { s.writeBytes 0xFFF [9#8, 8#8, 7#8] with i := 0xFFF#16 }) fun t =>
    t.getV 0#4 == 9#8 && t.getV 1#4 == 8#8 && t.getV 2#4 == 7#8 && t.i == 0x002#16 := by decide +kernel
theorem test_ldVxMem_font : after (prep 0xF065 fun s => { s with i := 0x50#16 }) fun t =>
    t.getV 0#4 == 0xF0#8 && t.getV 1#4 == 0#8 && t.i == 0x50#16 := by decide +kernel

/-! ## Display (V5, W8) -/

theorem test_drw_clips : after (prep 0xD015 fun s => { s.setV 1#4 30#8 with i := 0x50#16 }) fun t =>
    lit t == [1920, 1921, 1922, 1923, 1984, 1987] && t.getV VF == 0#8 && t.dirty && t.drewThisTick := by decide +kernel
theorem test_drw_wraps_its_start : after (prep 0xD011 fun s =>
      { ((turnOn 3 1 s).setV 0#4 67#8).setV 1#4 33#8 |>.writeMem 0x300 0xC0#8 with i := 0x300#16 }) fun t =>
    lit t == [68] && t.getV VF == 1#8 := by decide +kernel

/-! ## Keypad and timers (V6, W9) -/

theorem test_skp : after (prep 0xE09E fun s => (s.setV 0#4 0x15#8).setKey 5#4 true) fun t => t.pc == 0x204#16 := by
  decide +kernel
theorem test_sknp : after (prep 0xE0A1 fun s => (s.setV 0#4 0x15#8).setKey 5#4 true) fun t => t.pc == 0x202#16 := by
  decide +kernel
theorem test_sknp_not_held : after (prep 0xE2A1 (·.setV 2#4 5#8)) fun t => t.pc == 0x204#16 := by decide +kernel
theorem test_ldVxDt : after (prep 0xF107 (·.setDt 0x30#8)) fun t => t.getV 1#4 == 0x30#8 := by decide +kernel
theorem test_ldVxK : after (prep 0xF10A fun s => (s.setKey 9#4 true).setKey 3#4 true) fun t =>
    t.getV 1#4 == 3#8 && t.pc == 0x202#16 && t.outcome == some .advanced := by decide +kernel
theorem test_ldVxK_waits : after (prep 0xF10A id) fun t =>
    t.getV 1#4 == 0#8 && t.pc == 0x200#16 && t.outcome == some .repeated := by decide +kernel
theorem test_ldDtVx : after (prep 0xF015 (·.setV 0#4 0x30#8)) fun t => t.dt == 0x30#8 := by decide +kernel
theorem test_ldStVx : after (prep 0xF418 (·.setV 4#4 2#8)) fun t =>
    t.st == 2#8 && (tickBoundary t).st == 1#8 && (tickBoundary (tickBoundary t)).st == 0#8 := by decide +kernel

/-! ## The fetch and decode failures (V1) -/

theorem test_short_fetch : after { State.reset with pc := 0xFFF#16 } fun t =>
    t.pc == 0x1001#16 && t.log == [.decodeFailure 0xFFF#16 [0#8]] && t.outcome == some .decodeFailed := by decide +kernel
theorem test_fetch_wraps_pc : after { State.reset with pc := 0xFFFE#16 } fun t =>
    t.pc == 0x0000#16 && t.log == [.decodeFailure 0xFFFE#16 []] := by decide +kernel
theorem test_fetch_odd : after (prep 0x6345 fun s => { s with pc := 0x201#16 }) fun t =>
    t.pc == 0x203#16 && t.getV 3#4 == 0x45#8 := by decide +kernel

/-! ## Witnesses: concrete inputs that meet the hypotheses of each statement -/

/-- A configuration at the lower bounds construction accepts. -/
def smallest : Config :=
  { memSize := 80, romStart := 80, fontStart := 0, width := 1, height := 1, cyclesPerTick := 1, stackDepth := some 1 }

/-- A configuration at the upper bounds: all of the 16-bit address space, the font in its last 80 bytes, no stack limit. -/
def largest : Config := { memSize := 65536, romStart := 0, fontStart := 65456, stackDepth := none }

/-- What every statement under `validConfig s.cfg 0 = true` needs (AddIWrapsAndSignals, LdFPointsAtTheGlyph, LdBStoresTheDigits,
BlockStoreWritesTheRegisters, BlockLoadReadsTheRegisters, BlockLoadAfterStoreRestores, BcdDigitsLoadBack). -/
theorem witness_valid_config :
    validConfig State.reset.cfg 0 = true ∧ validConfig smallest 0 = true ∧ validConfig largest 0 = true := by decide +kernel

/-- What every statement under `State.Inv` needs (StepKeepsTheInvariant, HostOperationsKeepTheInvariant). -/
theorem witness_inv : State.reset.Inv ∧ (State.blank smallest).Inv ∧ ∃ t, step State.reset = .next t :=
  ⟨by decide +kernel, by decide +kernel, _, rfl⟩

theorem witness_DecodeOfEncode :
    Instr.wellFormed (.jpV0 15#4 0xFFF#12) = true ∧ decode (encodeBytes (.jpV0 15#4 0xFFF#12)) = .ok (.jpV0 15#4 0xFFF#12) := by
  decide

theorem witness_EncodeOfDecode : decode [0xDF#8, 0xFF#8] = .ok (.drw 15#4 15#4 15#4) := by decide

theorem witness_DecodeFollowsTheOpcodeMap :
    decodeWord 0x800E#16 = .ok (.shl 0#4 0#4) ∧ 0x8FFE#16 &&& (Instr.shl 0#4 0#4).row.mask = (Instr.shl 0#4 0#4).row.pattern := by
  decide

/-- Each clause of R32 at its edges, the legal word beside each, and a state whose fetch fails decode. -/
theorem witness_DecodeFailsExactly :
    (decode [] = .error .shortInput ∧ decode [0x12#8] = .error .shortInput) ∧
    (decode [0x00#8, 0xEF#8] = .error .family0 ∧ decode [0x00#8, 0xEE#8] = .ok .ret) ∧
    (decode [0x5F#8, 0xFF#8] = .error .selector5 ∧ decode [0x9F#8, 0xF1#8] = .error .selector9) ∧
    (decode [0x80#8, 0x0D#8] = .error .selector8 ∧ decode [0x80#8, 0x0F#8] = .error .selector8) ∧
    (decode [0xE0#8, 0xA0#8] = .error .selectorE ∧ decode [0xF0#8, 0x66#8] = .error .selectorF) ∧
    decode State.reset.fetch = .error .family0 := by decide

theorem witness_FetchStopsAtTheEndOfMemory :
    (0xFFE#16).toNat + 1 < Config.defaults.memSize ∧ (0xFFF#16).toNat + 1 = Config.defaults.memSize ∧
    Config.defaults.memSize ≤ (0x1000#16).toNat := by decide

theorem witness_StepRunsTheDecodedInstruction : decode (prep 0x6345 id).fetch = .ok (.ldImm 3#4 0x45#8) := by decide +kernel

/-- Each outcome is given. -/
theorem witness_EveryStepEndsWithOneOutcome :
    after (prep 0x6345 id) (fun t => t.outcome == some .advanced) ∧
    after (prep 0xF10A id) (fun t => t.outcome == some .repeated) ∧
    after (prep 0x0000 id) (fun t => t.outcome == some .decodeFailed) := by decide +kernel

theorem witness_StepWritesOnlyWhatTheRuleNames :
    (∃ t, exec (.ldImm 3#4 0x45#8) State.reset = .next t) ∧ decode (prep 0x6345 id).fetch = .ok (.ldImm 3#4 0x45#8) ∧
    ∃ t, step (prep 0x6345 id) = .next t := ⟨⟨_, rfl⟩, by decide +kernel, _, rfl⟩

theorem witness_RegistersChangeOnlyAsNamed :
    (∃ t, exec (.addReg 3#4 4#4) State.reset = .next t) ∧ writesReg State.reset 4#4 (.addReg 3#4 4#4) = false :=
  ⟨⟨_, rfl⟩, by decide⟩

/-- Each element does change under an instruction that names it. -/
theorem witness_EachElementHasItsOwnWriters :
    after (prep 0xF015 (·.setV 0#4 1#8)) (fun t => t.dt != 0#8) ∧
    after (prep 0xF018 (·.setV 0#4 1#8)) (fun t => t.st != 0#8) ∧
    after (prep 0x00E0 id) (fun t => t.dirty) ∧
    after (prep 0xD015 id) (fun t => t.drewThisTick && t.dirty) ∧
    after (prep 0x2300 id) (fun t => t.stack != []) ∧
    after (prep 0xA300 id) (fun t => t.i != 0#16) ∧
    after (prep 0xF033 fun s => { s.setV 0#4 1#8 with i := 0x300#16 }) (fun t => t.readMem 0x302 != 0#8) ∧
    after (prep 0xF055 fun s => { s.setV 0#4 1#8 with i := 0x300#16 }) (fun t => t.readMem 0x300 != 0#8) := by decide +kernel

/-- A ROM that construction accepts, at the end of memory, and one byte more, which it refuses; a ROM that ends where the font
begins, and one that runs into it. -/
theorem witness_ConstructionBuildsTheCore :
    (construct { romStart := 0xFFE } [0x12#8, 0x00#8]).isSome = true ∧
    (construct { romStart := 0xFFF } [0x12#8, 0x00#8]).isSome = false ∧
    (construct { romStart := 0x4E } [0x12#8, 0x00#8]).isSome = true ∧
    (construct { romStart := 0x4F } [0x12#8, 0x00#8]).isSome = false := by decide +kernel

/-- ConstructionEstablishesTheInvariant and RomRunsFromItsFirstWord. -/
theorem witness_RomRunsFromItsFirstWord :
    ∃ s, construct Config.defaults [0x63#8, 0x45#8, 0x12#8] = some s ∧ s.fetch = [0x63#8, 0x45#8] :=
  ⟨(State.blank Config.defaults).writeBytes 0x200 [0x63#8, 0x45#8, 0x12#8], by decide +kernel, by decide +kernel⟩

/-- The reset state with one step to a tick. -/
def oneCycle : State := { State.reset with cfg := { cyclesPerTick := 1 } }

/-- TickKeepsTheInvariant, and ReadOutPushesOnceIfDirty's last clause. -/
theorem witness_TickKeepsTheInvariant :
    oneCycle.Inv ∧ ∃ b pushed t, batch oneCycle.cfg.cyclesPerTick [[.keyDown 5#4]] oneCycle = .running b ∧
      tick [[.keyDown 5#4]] oneCycle = .ticked pushed t := ⟨by decide +kernel, _, _, _, rfl, rfl⟩

theorem witness_RetPopsOrReports :
    State.reset.stack = [] ∧ ({ State.reset with stack := [0x206#16] } : State).stack = 0x206#16 :: [] ∧
    ({ State.reset with stack := [0x1000#16] } : State).cfg.memSize ≤ (0x1000#16).toNat := by decide

/-- A target outside memory needs a `MEM_SIZE` below 4096; the self-loop. -/
theorem witness_JpSetsThePc :
    (State.blank smallest).cfg.memSize ≤ (80#12).toNat ∧ decode (prep 0x1200 id).fetch = .ok (.jp 0x200#12) ∧
    (prep 0x1200 id).pc.toNat = (0x200#12).toNat := by decide +kernel

/-- CallPushesOrReports and RetAfterCallComesBack: fifteen entries leave room, sixteen do not, an unbounded stack always has. -/
theorem witness_CallPushesOrReports :
    (fullStack.tail.length < 16 ∧ State.reset.cfg.stackDepth = some 16) ∧ 16 ≤ fullStack.length ∧
    largest.stackDepth = none ∧
    after (prep 0x2300 fun s => { s with stack := fullStack.tail }) (fun t => t.stack.length == 16) := by decide +kernel

/-- FX55 with all registers from 0xFFE: the words at 0xFFE and, past the wrap, at 0x000, and no word at 0xFFF. FX33 at the same
places. -/
theorem witness_StoredWordIsFetched :
    validConfig State.reset.cfg 0 = true ∧
    afterExec (exec (.ldMemVx VF) { State.reset with i := 0xFFE#16 }) (fun t =>
      t.cfg == State.reset.cfg && decide ((0xFFE#16).toNat = (t.i.toNat + (0#4).toNat) % 4096 ∧ (0xFFE#16).toNat + 1 < 4096 ∧
        (0x000#16).toNat = (t.i.toNat + (2#4).toNat) % 4096 ∧ ¬(t.i.toNat + (1#4).toNat) % 4096 + 1 < 4096)) ∧
    (0#4 : Reg) < VF ∧ (14#4 : Reg) < VF ∧
    afterExec (exec (.ldB 3#4) { State.reset with i := 0xFFF#16 }) (fun t =>
      decide ((0x000#16).toNat = (t.i.toNat + 1) % 4096) && decide ((0xFFE#16).toNat + 1 < 4096)) := by decide +kernel

theorem witness_GatedDrawIsRepeated :
    let s := { State.reset with drewThisTick := true }
    s.cfg.quirks.displayWait = true ∧ s.drewThisTick = true := by decide

/-- The gate is open in both ways; a sprite that covers a pixel that is on, and one that covers a pixel that is off. -/
theorem witness_DrawFlipsTheCoveredPixels :
    State.reset.Inv ∧ State.reset.drewThisTick = false ∧
    (let s := withQuirks { displayWait := false } { turnOn 0 0 State.reset with drewThisTick := true }
     s.Inv ∧ s.cfg.quirks.displayWait = false ∧
     pixel s.cfg s.fb 0 0 = true ∧ spriteCovers { s with i := 0x50#16 } 0 0 1 0 0 = true) := by decide +kernel

/-- Glyph 0 drawn at the top left corner of a blank screen: no covered pixel is on, and one lies inside the screen. -/
theorem witness_DrawingTwiceRestoresTheScreen :
    let s := { State.reset with i := 0x50#16 }
    s.Inv ∧ (1#4 : Reg) ≠ VF ∧ (2#4 : Reg) ≠ VF ∧ s.drewThisTick = false ∧
    (∀ k, k < 2048 → s.fb.getD k false = false) ∧
    spriteCovers s ((s.getV 1#4).toNat % s.cfg.width) ((s.getV 2#4).toNat % s.cfg.height) 5 0 0 = true := by
  refine ⟨by decide +kernel, by decide, by decide, by decide, fun k _ => ?_, by decide +kernel⟩
  show (List.replicate 2048 false).getD k false = false
  rw [List.getD_eq_getElem?_getD, List.getElem?_replicate]
  split <;> rfl

/-- WaitsHoldUntilTheHostActs and the last clauses of KeyWaitTakesTheLeastKey. -/
theorem witness_WaitsHoldUntilTheHostActs :
    decode (prep 0xF10A id).fetch = .ok (.ldVxK 1#4) ∧ (∀ k, (prep 0xF10A id).getKey k = false) ∧
    (let s := prep 0xD125 fun s => { s with drewThisTick := true }
     decode s.fetch = .ok (.drw 1#4 2#4 5#4) ∧ s.cfg.quirks.displayWait = true ∧ s.drewThisTick = true) := by decide +kernel

theorem witness_KeySkipsTestTheLatch :
    (5#4 : Nibble).toNat = ((State.reset.setV 0#4 0x15#8).getV 0#4).toNat % 16 := by decide

/-- The least held key: 3 of 3 and 9, and 15 alone. -/
theorem witness_KeyWaitTakesTheLeastKey :
    (let s := (State.reset.setKey 9#4 true).setKey 3#4 true
     s.getKey 3#4 = true ∧ ∀ j, j < 3#4 → s.getKey j = false) ∧
    (let s := State.reset.setKey 15#4 true
     s.getKey 15#4 = true ∧ ∀ j, j < 15#4 → s.getKey j = false) := by decide +kernel

theorem witness_TickBoundariesCountDown : (tickBoundary { State.reset with dt := 1#8 }).dt = 0#8 := by decide

theorem witness_ReadOutPushesOnceIfDirty :
    ({ State.reset with dirty := true } : State).dirty = true ∧ State.reset.dirty = false := by decide

theorem witness_DrainAppliesEventsInOrder :
    .quit ∉ [InputEvent.keyDown 4#4, InputEvent.keyUp 4#4] ∧
    drain [.keyDown 4#4, .keyUp 4#4] State.reset = .running State.reset := by decide +kernel

/-- A `Quit` before the first step, and one before the second, behind a key event. -/
theorem witness_QuitEndsTheRunBeforeTheFetch :
    .quit ∈ [InputEvent.keyDown 4#4, InputEvent.quit] ∧ (∀ e ∈ [[InputEvent.keyDown 5#4]], .quit ∉ e) ∧
    batch 1 [[.keyDown 4#4, .quit]] State.reset = .ended (State.reset.setKey 4#4 true) := by decide +kernel

/-- Events without a `Quit` before a step that runs, and a `Quit` behind the last step of the batch. -/
theorem witness_TickIsABatchThenTheBoundary :
    drain [.keyDown 5#4] State.reset = .running (State.reset.setKey 5#4 true) ∧
    (∃ t, step (State.reset.setKey 5#4 true) = .next t) ∧
    (∀ e ∈ [[InputEvent.keyDown 5#4], [InputEvent.quit]].take 1, .quit ∉ e) ∧
    ∃ b, batch oneCycle.cfg.cyclesPerTick [[.keyDown 5#4]] oneCycle = .running b :=
  ⟨by decide +kernel, ⟨_, rfl⟩, by decide, _, rfl⟩

/-! ## The run (60_exceptions.md R93) -/

/-- Where a run stands: the images pushed, as the number of pixels on in each, whether it goes on, and the state. -/
def runShows (r : Option RunResult) (images : List Nat) (goesOn : Bool) (p : State → Bool) : Bool :=
  match r with
  | none => false
  | some r => r.images.map (fun fb => fb.countP id) == images && decide (r.last = .running r.last.state) == goesOn &&
      p r.last.state

/-- Two steps to a tick, on a small screen. -/
def twoCycles : Config := { cyclesPerTick := 2, width := 8, height := 4 }

/-- The ROM `A050 D001 6007 F015`, by R93 and R94: the first tick draws the four pixels of glyph 0's top row and pushes them, the
second steps on from there, and a `Quit` before its second step ends the run at that point; without the `Quit` that tick is
complete, pushes nothing and its boundary counts DT down from 7. -/
theorem test_run :
    runShows (hostRun twoCycles [0xA0#8, 0x50#8, 0xD0#8, 0x01#8, 0x60#8, 0x07#8, 0xF0#8, 0x15#8] [[], [[], [.quit]]]) [4] false
      (fun t => t.pc == 0x206#16 && t.getV 0#4 == 7#8 && !t.drewThisTick && !t.dirty) ∧
    runShows (hostRun twoCycles [0xA0#8, 0x50#8, 0xD0#8, 0x01#8, 0x60#8, 0x07#8, 0xF0#8, 0x15#8] [[], []]) [4] true
      (fun t => t.pc == 0x208#16 && t.dt == 6#8) := by decide +kernel

/-- RunRepeatsTheTickUntilQuit and RunKeepsTheInvariant: a construction that succeeds and one that fails, a run that goes on and
whose next tick is complete or ended, a run that has ended. -/
theorem witness_RunRepeatsTheTickUntilQuit :
    (∃ s, construct { cyclesPerTick := 1 } [] = some s) ∧ construct { cyclesPerTick := 0 } [] = none ∧
    (∃ u, (runTicks [[]] oneCycle).last = .running u ∧ (∃ pushed t, tick [] u = .ticked pushed t) ∧
      ∃ t, tick [[.quit]] u = .ended t) ∧
    (∃ u, (runTicks [[[.quit]]] oneCycle).last = .ended u) ∧
    ∃ r, hostRun { cyclesPerTick := 1 } [] [[], [[.quit]]] = some r :=
  ⟨⟨_, rfl⟩, by decide, ⟨_, rfl, ⟨_, _, rfl⟩, _, rfl⟩, ⟨_, rfl⟩, _, rfl⟩

end Sys2Proof.Tests
end

section
/-! Which inputs fail decode (30_encoding.md R32), selector by selector, and what a step does with a failing fetch
(60_exceptions.md R79). -/

namespace Sys2Proof

open Sys2Proof.Machine

theorem decode_error_of_length_lt_two {bytes : List Byte} (h : bytes.length < 2) : decode bytes = .error .shortInput := by
  match bytes, h with
  | [], _ => rfl
  | [_], _ => rfl

/-! The selectors. Each decoder of a family is a chain of tests of its selector, or one match on it. -/

/-- A chain of selector tests fails where the first test does and the rest of the chain fails. -/
theorem ite_ok_eq_error_iff (c : Prop) [Decidable c] (i : Instr) (rest : Except DecodeError Instr) :
    (∃ e, (if c then .ok i else rest) = .error e) ↔ ¬c ∧ ∃ e, rest = .error e := by
  split <;> simp [*]

theorem decode0_eq_error_iff (w : Word) :
    (∃ e, decode0 w = .error e) ↔ w.toNat ≠ 0x00E0 ∧ w.toNat ≠ 0x00EE := by
  simp [decode0, ite_ok_eq_error_iff, BitVec.toNat_eq]

theorem decode8_eq_error_iff (x y : Reg) (n : Nibble) :
    (∃ e, decode8 x y n = .error e) ↔ n.toNat ∈ [0x8, 0x9, 0xA, 0xB, 0xC, 0xD, 0xF] := by
  have hn := n.isLt
  unfold decode8
  split
  case h_10 =>
    simp only [imp_false] at *
    refine iff_of_true ⟨_, rfl⟩ ?_
    simp only [List.mem_cons, List.not_mem_nil, or_false]
    omega
  -- the nine selectors of an instruction
  all_goals simp [*]

theorem decodeE_eq_error_iff (x : Reg) (nn : Byte) :
    (∃ e, decodeE x nn = .error e) ↔ nn.toNat ∉ [0x9E, 0xA1] := by
  simp [decodeE, ite_ok_eq_error_iff, BitVec.toNat_eq]

theorem decodeF_eq_error_iff (x : Reg) (nn : Byte) :
    (∃ e, decodeF x nn = .error e) ↔ nn.toNat ∉ [0x07, 0x0A, 0x15, 0x18, 0x1E, 0x29, 0x33, 0x55, 0x65] := by
  simp [decodeF, ite_ok_eq_error_iff, BitVec.toNat_eq]

/-- The words that fail decode: by family, the selectors that R32 lists. -/
theorem decodeWord_eq_error_iff (w : Word) :
    (∃ e, decodeWord w = .error e) ↔
      (w.toNat / 4096 = 0x0 ∧ w.toNat ≠ 0x00E0 ∧ w.toNat ≠ 0x00EE) ∨
      ((w.toNat / 4096 = 0x5 ∨ w.toNat / 4096 = 0x9) ∧ w.toNat % 16 ≠ 0) ∨
      (w.toNat / 4096 = 0x8 ∧ w.toNat % 16 ∈ [0x8, 0x9, 0xA, 0xB, 0xC, 0xD, 0xF]) ∨
      (w.toNat / 4096 = 0xE ∧ w.toNat % 256 ∉ [0x9E, 0xA1]) ∨
      (w.toNat / 4096 = 0xF ∧ w.toNat % 256 ∉ [0x07, 0x0A, 0x15, 0x18, 0x1E, 0x29, 0x33, 0x55, 0x65]) := by
  rw [← toNat_fieldF, ← toNat_fieldN, ← toNat_fieldNN]
  unfold decodeWord
  split
  case h_1 hf => rw [decode0_eq_error_iff]; simp [hf]
  case h_6 hf => rw [ite_ok_eq_error_iff]; simp [hf, BitVec.toNat_eq]
  case h_9 hf => rw [decode8_eq_error_iff]; simp [hf]
  case h_10 hf => rw [ite_ok_eq_error_iff]; simp [hf, BitVec.toNat_eq]
  case h_15 hf => rw [decodeE_eq_error_iff]; simp [hf]
  case h_16 =>
    have hlt := (fieldF w).isLt
    simp only [imp_false] at *
    have hf : (fieldF w).toNat = 0xF := by omega
    rw [decodeF_eq_error_iff]; simp [hf]
  -- the families without a selector
  all_goals simp [*]

/-- A failing fetch is skipped and logged (60_exceptions.md R79). -/
theorem step_of_decode_error {s : State} {e : DecodeError} (h : decode s.fetch = .error e) :
    step s = decodeFailed s.pc s.fetch s.advancePc := by
  rw [step, h]

/-- Settles O4: the failing words from the failing selectors of each family, the failing step from the step's error branch. -/
theorem decodeFailsExactly : Obligations.DecodeFailsExactly := by
  refine ⟨fun _ h => ⟨_, decode_error_of_length_lt_two h⟩, fun byte0 byte1 => ?_, fun s e h => step_of_decode_error h⟩
  intro w
  have hw : (wordOfBytes byte0 byte1).toNat = w := toNat_wordOfBytes byte0 byte1
  rw [← hw]
  exact decodeWord_eq_error_iff (wordOfBytes byte0 byte1)

end Sys2Proof
end

section
/-! Control transfer: the return, the jump and the skips (40_control_flow.md R36 to R38, R40 to R43), and the fetch that fails
outside memory (20_memory.md R22). -/

namespace Sys2Proof

open Sys2Proof.Machine

/-- A fetch at or above `MEM_SIZE` gives no byte. -/
theorem fetch_eq_nil_of_memSize_le {s : State} (h : s.cfg.memSize ≤ s.pc.toNat) : s.fetch = [] := by
  have hpair : ¬s.pc.toNat + 1 < s.cfg.memSize := by omega
  have hbyte : ¬s.pc.toNat < s.cfg.memSize := by omega
  simp only [State.fetch, if_neg hpair, if_neg hbyte]

theorem decode_fetch_error_of_memSize_le {s : State} (h : s.cfg.memSize ≤ s.pc.toNat) :
    decode s.fetch = .error .shortInput := by
  rw [fetch_eq_nil_of_memSize_le h]
  exact decode_error_of_length_lt_two (by decide)

theorem step_of_decode_ok {s : State} {i : Instr} (h : decode s.fetch = .ok i) : step s = exec i s.advancePc := by
  rw [step, h]

/-- Settles O23: an empty stack pops nothing, a non-empty one its top, and a top outside memory fetches nothing. -/
theorem retPopsOrReports : Obligations.RetPopsOrReports := by
  refine ⟨by decide, fun s hempty => ?_, fun s top rest hstack => ⟨?_, fun hmem => ?_⟩⟩
  · have hpop : s.pop = none := s.pop_eq_none.2 hempty
    simp only [exec, execRet, hpop]
    rfl
  · have hpop : s.pop = some (top, s.setStack rest) := (s.pop_eq_some _ top).2 ⟨rest, hstack, rfl⟩
    simp only [exec, execRet, hpop]
    rfl
  · exact ⟨_, decode_fetch_error_of_memSize_le hmem⟩

theorem decodeWord_formatA_jp (nnn : Addr12) : decodeWord (formatA 0x1#4 nnn) = .ok (.jp nnn) := by
  obtain ⟨hf, hnnn, -⟩ := fields_formatA 0x1#4 nnn
  simp [decodeWord, hf, hnnn]

/-- The frame of a step that ends by a write of `pc`, as a jump and a skip do. -/
theorem onlyWrites_setPc_setOutcome (s : State) (target : Word) (o : StepOutcome) :
    OnlyWrites [.pc, .outcome] s ((s.setPc target).setOutcome o) := by
  intro e he
  cases e
  case pc | outcome => simp at he
  all_goals simp [Same]

/-- The fetch advance does not show after a jump, which replaces `pc`. -/
theorem exec_jp_advancePc (nnn : Addr12) (s : State) : exec (.jp nnn) s.advancePc = exec (.jp nnn) s := rfl

theorem exec_jp_of_pc_eq {nnn : Addr12} {s : State} (h : s.pc.toNat = nnn.toNat) :
    exec (.jp nnn) s = .next { s with outcome := some .advanced } := by
  have hpc : nnn.setWidth 16 = s.pc := by
    apply BitVec.eq_of_toNat_eq
    rw [BitVec.toNat_setWidth_of_le (by decide), h]
  simp only [exec, execJp, hpc]
  rfl

/-- Settles O24: the decoded address becomes `pc`, and where it was `pc` already the jump and the fetch advance cancel. -/
theorem jpSetsThePc : Obligations.JpSetsThePc := by
  intro nnn
  have htarget : (nnn.setWidth 16).toNat = nnn.toNat := BitVec.toNat_setWidth_of_le (by decide)
  refine ⟨decodeWord_formatA_jp nnn, fun s => ?_, fun s hdecode hpc => ?_⟩
  · refine ⟨(s.setPc (nnn.setWidth 16)).setOutcome .advanced, rfl, rfl, htarget, onlyWrites_setPc_setOutcome s _ _,
      fun hmem => ?_⟩
    exact ⟨_, decode_fetch_error_of_memSize_le (hmem.trans_eq htarget.symm)⟩
  · rw [step_of_decode_ok hdecode, exec_jp_advancePc, exec_jp_of_pc_eq hpc]

theorem decodeWord_formatXK_seImm (x : Reg) (nn : Byte) : decodeWord (formatXK 0x3#4 x nn) = .ok (.seImm x nn) := by
  obtain ⟨hf, hx, hnn⟩ := fields_formatXK 0x3#4 x nn
  simp [decodeWord, hf, hx, hnn]

theorem decodeWord_formatXK_sneImm (x : Reg) (nn : Byte) : decodeWord (formatXK 0x4#4 x nn) = .ok (.sneImm x nn) := by
  obtain ⟨hf, hx, hnn⟩ := fields_formatXK 0x4#4 x nn
  simp [decodeWord, hf, hx, hnn]

/-- Family 5: the low nibble 0 is its only selector. -/
theorem decodeWord_formatXYN_seReg (x y : Reg) (n : Nibble) :
    decodeWord (formatXYN 0x5#4 x y n) = if n = 0#4 then .ok (.seReg x y) else .error .selector5 := by
  obtain ⟨hf, hx, hy, hn⟩ := fields_formatXYN 0x5#4 x y n
  simp [decodeWord, hf, hx, hy, hn]

/-- Family 9: the low nibble 0 is its only selector. -/
theorem decodeWord_formatXYN_sneReg (x y : Reg) (n : Nibble) :
    decodeWord (formatXYN 0x9#4 x y n) = if n = 0#4 then .ok (.sneReg x y) else .error .selector9 := by
  obtain ⟨hf, hx, hy, hn⟩ := fields_formatXYN 0x9#4 x y n
  simp [decodeWord, hf, hx, hy, hn]

/-- A skip on the Boolean test of `p` moves `pc` over one word where `p` holds and does nothing else (40_control_flow.md R36). -/
theorem skipIf_eq {taken : Bool} {p : Prop} [Decidable p] (h : taken = true ↔ p) (s : State) :
    skipIf taken s = .next { s with pc := if p then s.pc + 2#16 else s.pc, outcome := some .advanced } := by
  by_cases hp : p
  · rw [if_pos hp, h.2 hp]
    rfl
  · rw [if_neg hp, Bool.eq_false_iff.2 (mt h.1 hp)]
    rfl

/-- Settles O27: the four words decode by their fields, and each skip tests the equality its rule states. -/
theorem skipsCompareAsStated : Obligations.SkipsCompareAsStated := by
  intro x y nn
  refine ⟨decodeWord_formatXK_seImm x nn, decodeWord_formatXK_sneImm x nn, decodeWord_formatXYN_seReg x y 0#4,
    decodeWord_formatXYN_sneReg x y 0#4, fun n hn => ⟨⟨.selector5, ?_⟩, ⟨.selector9, ?_⟩⟩,
    fun s => ⟨?_, ?_, ?_, ?_⟩⟩
  · exact (decodeWord_formatXYN_seReg x y n).trans (if_neg hn)
  · exact (decodeWord_formatXYN_sneReg x y n).trans (if_neg hn)
  · exact skipIf_eq beq_iff_eq s
  · exact skipIf_eq bne_iff_ne s
  · exact skipIf_eq beq_iff_eq s
  · exact skipIf_eq bne_iff_ne s

end Sys2Proof
end

section
/-! Register arithmetic, logic and shifts (41_alu.md R46, R48 to R54, R56, R57): the selectors of family 8, the frame of a step that
writes registers alone, and the two shapes of such a step, a result with the flag written last and a result with the flag reset. -/

namespace Sys2Proof

open Sys2Proof.Machine

theorem decodeWord_formatXK_ldImm (x : Reg) (nn : Byte) : decodeWord (formatXK 0x6#4 x nn) = .ok (.ldImm x nn) := by
  obtain ⟨hf, hx, hnn⟩ := fields_formatXK 0x6#4 x nn
  simp [decodeWord, hf, hx, hnn]

/-- Family 8: the low nibble is the selector. -/
theorem decodeWord_formatXYN_family8 (x y : Reg) (n : Nibble) : decodeWord (formatXYN 0x8#4 x y n) = decode8 x y n := by
  obtain ⟨hf, hx, hy, hn⟩ := fields_formatXYN 0x8#4 x y n
  simp [decodeWord, hf, hx, hy, hn]

/-- The frame of a step that ends by writes of registers alone. -/
theorem onlyWrites_setRegs_setOutcome (s : State) (w : Vector Byte 16) (o : StepOutcome) :
    OnlyWrites [.regs, .outcome] s ((s.setRegs w).setOutcome o) := by
  intro e he
  cases e
  case regs | outcome => simp at he
  all_goals simp [Same]

/-- A result write with the flag written last: `VF` ends as the flag, also where it is the destination (41_alu.md R53 to R57). -/
theorem advanced_setV_setFlag (s : State) (x : Reg) {result : Byte} {flag : Bool} {n f : Nat}
    (hresult : result.toNat = n) (hflag : (if flag then 1 else 0) = f) :
    ∃ t, advanced ((s.setV x result).setFlag flag) = .next t ∧ t.outcome = some .advanced ∧
      (∀ r, (t.getV r).toNat = if r = VF then f else if r = x then n else (s.getV r).toNat) ∧
      OnlyWrites [.regs, .outcome] s t := by
  refine ⟨_, rfl, rfl, fun r => ?_, onlyWrites_setRegs_setOutcome s _ _⟩
  rw [State.getV_setOutcome, State.getV_setFlag, State.getV_setV, ← hresult, ← hflag]
  split_ifs <;> rfl

/-- A result write with the flag reset last: under the quirk `VF` ends at 0, also where it is the destination (41_alu.md R48). -/
theorem advanced_setV_logicReset (s : State) (x : Reg) (result : Byte) :
    ∃ t, advanced (s.setV x result).logicReset = .next t ∧ t.outcome = some .advanced ∧
      (∀ r, t.getV r =
        if r = VF ∧ s.cfg.quirks.logicOpsResetVf = true then 0#8 else if r = x then result else s.getV r) ∧
      OnlyWrites [.regs, .outcome] s t := by
  refine ⟨_, rfl, rfl, fun r => ?_, ?_⟩
  · rw [State.getV_setOutcome, State.getV_logicReset, State.getV_setV, State.setV_cfg]
    exact if_congr and_comm rfl rfl
  · rw [State.logicReset_eq]
    exact onlyWrites_setRegs_setOutcome s _ _

/-- The four logic operations differ in their result alone. -/
theorem exec_eq_setV_logicReset {x y : Reg} {s : State} {i : Instr} {result : Byte}
    (h : (i, result) ∈ [(.ldReg x y, s.getV y), (.orReg x y, s.getV x ||| s.getV y),
      (.andReg x y, s.getV x &&& s.getV y), (.xorReg x y, s.getV x ^^^ s.getV y)]) :
    exec i s = advanced (s.setV x result).logicReset := by
  simp only [List.mem_cons, List.not_mem_nil, or_false, Prod.mk.injEq] at h
  obtain ⟨rfl, rfl⟩ | ⟨rfl, rfl⟩ | ⟨rfl, rfl⟩ | ⟨rfl, rfl⟩ := h <;> rfl

/-- Settles O31: family 8 decodes by its selector, and each operation ends by the flag reset. -/
theorem logicOpsAndTheirFlagReset : Obligations.LogicOpsAndTheirFlagReset := by
  intro x y
  have hdecode := decodeWord_formatXYN_family8 x y
  refine ⟨hdecode 0x0#4, hdecode 0x1#4, hdecode 0x2#4, hdecode 0x3#4, fun s i result h => ?_⟩
  rw [exec_eq_setV_logicReset h]
  exact advanced_setV_logicReset s x result

/-- Settles O32: the carry is that of the exact sum, and it is written after the wrapped sum. -/
theorem addRegSetsTheCarry : Obligations.AddRegSetsTheCarry := by
  intro x y
  refine ⟨decodeWord_formatXYN_family8 x y 0x4#4, fun s => ⟨?_, ?_⟩⟩
  · have ha := (s.getV x).isLt
    have hb := (s.getV y).isLt
    omega
  · exact advanced_setV_setFlag s x (BitVec.toNat_add _ _) (if_congr (carryOfAdd_iff _ _) rfl rfl)

theorem toNat_byte_sub (a b : Byte) : (a - b).toNat = (a.toNat + 256 - b.toNat) % 256 := by
  have hb := b.isLt
  rw [BitVec.toNat_sub]
  omega

/-- A subtraction into `Vx`: the difference modulo 256, then the no-borrow flag (41_alu.md R54, R56). -/
theorem advanced_sub_noBorrow (s : State) (x : Reg) (minuend subtrahend : Byte) :
    ∃ t, advanced ((s.setV x (minuend - subtrahend)).setFlag (noBorrow minuend subtrahend)) = .next t ∧
      t.outcome = some .advanced ∧
      (∀ r, (t.getV r).toNat =
        if r = VF then (if subtrahend.toNat ≤ minuend.toNat then 1 else 0)
        else if r = x then (minuend.toNat + 256 - subtrahend.toNat) % 256 else (s.getV r).toNat) ∧
      OnlyWrites [.regs, .outcome] s t :=
  advanced_setV_setFlag s x (toNat_byte_sub _ _) (if_congr (noBorrow_iff _ _) rfl rfl)

/-- Settles O33: one subtraction, with `Vx` as its minuend and as its subtrahend. -/
theorem subtractionsSetNoBorrow : Obligations.SubtractionsSetNoBorrow := by
  intro x y
  refine ⟨decodeWord_formatXYN_family8 x y 0x5#4, decodeWord_formatXYN_family8 x y 0x7#4, fun s => ⟨?_, ?_⟩⟩
  · exact advanced_sub_noBorrow s x (s.getV x) (s.getV y)
  · exact advanced_sub_noBorrow s x (s.getV y) (s.getV x)

theorem toNat_byte_shiftLeft_one (b : Byte) : (b <<< 1).toNat = b.toNat * 2 % 256 := by
  rw [BitVec.toNat_shiftLeft, Nat.shiftLeft_eq]

/-- Bit 7 of a byte is its value divided by 128. -/
theorem ite_shiftedOutLeft (b : Byte) : (if shiftedOutLeft b then 1 else 0) = b.toNat / 128 := by
  have hb := b.isLt
  rw [if_congr (shiftedOutLeft_iff b) rfl rfl]
  split <;> omega

/-- Settles O34: the source is doubled, whichever register it is, and then its old bit 7 becomes the flag. -/
theorem shlShiftsOutBit7 : Obligations.ShlShiftsOutBit7 := by
  intro x y
  refine ⟨decodeWord_formatXYN_family8 x y 0xE#4, fun s => ?_⟩
  exact advanced_setV_setFlag s x (toNat_byte_shiftLeft_one (s.shiftSource x y)) (ite_shiftedOutLeft (s.shiftSource x y))

/-- Settles O29: the load is one register write. -/
theorem ldImmLoads : Obligations.LdImmLoads := by
  intro x nn
  refine ⟨decodeWord_formatXK_ldImm x nn, fun s => ?_⟩
  exact ⟨_, rfl, rfl, s.getV_setV x nn, onlyWrites_setRegs_setOutcome s _ _⟩

end Sys2Proof
end

section
/-! Index register and memory (42_index_memory.md R61, R62, R64): the selectors of family F, what `validConfig` says of memory,
the frame of each state write and of writes in sequence, and data addresses modulo `MEM_SIZE`. -/

namespace Sys2Proof

open Sys2Proof.Machine

/-- Family F: the low byte is the selector. -/
theorem decodeWord_formatXK_familyF (x : Reg) (nn : Byte) : decodeWord (formatXK 0xF#4 x nn) = decodeF x nn := by
  obtain ⟨hf, hx, hnn⟩ := fields_formatXK 0xF#4 x nn
  simp [decodeWord, hf, hx, hnn]

/-- A valid configuration has the whole font inside memory and memory inside the 16-bit address space
(70_reset_and_hazards.md R98). -/
theorem memory_bounds_of_validConfig {cfg : Config} {romLen : Nat} (h : validConfig cfg romLen = true) :
    cfg.fontStart + 80 ≤ cfg.memSize ∧ cfg.memSize ≤ 65536 := by
  simp only [validConfig, Bool.and_eq_true, decide_eq_true_eq] at h
  omega

/-! Frames: each state write changes its own element alone, and writes in sequence change no other element than theirs. -/

theorem onlyWrites_setRegs (s : State) (w : Vector Byte 16) : OnlyWrites [.regs] s (s.setRegs w) := by
  intro e he
  cases e
  case regs => simp at he
  all_goals simp [Same]

theorem onlyWrites_setI (s : State) (a : Word) : OnlyWrites [.index] s (s.setI a) := by
  intro e he
  cases e
  case index => simp at he
  all_goals simp [Same]

theorem onlyWrites_setMem (s : State) (m : Memory) : OnlyWrites [.mem] s (s.setMem m) := by
  intro e he
  cases e
  case mem => simp at he
  all_goals simp [Same]

theorem onlyWrites_writeBytes (s : State) (a : Nat) (bs : List Byte) : OnlyWrites [.mem] s (s.writeBytes a bs) := by
  rw [State.writeBytes_eq]
  exact onlyWrites_setMem s _

theorem onlyWrites_setOutcome (s : State) (o : StepOutcome) : OnlyWrites [.outcome] s (s.setOutcome o) := by
  intro e he
  cases e
  case outcome => simp at he
  all_goals simp [Same]

theorem same_trans {e : Element} {s t u : State} (hst : Same e s t) (htu : Same e t u) : Same e s u := by
  cases e
  case regs | keys | mem => exact fun a => (htu a).trans (hst a)
  all_goals exact Eq.trans htu hst

theorem onlyWrites_append {ws vs : List Element} {s t u : State} (hst : OnlyWrites ws s t) (htu : OnlyWrites vs t u) :
    OnlyWrites (ws ++ vs) s u := by
  intro e he
  rw [List.mem_append, not_or] at he
  exact same_trans (hst e he.1) (htu e he.2)

/-! FX29. -/

/-- Under a valid configuration the glyph's address is not reduced: it lies inside memory. -/
theorem toNat_ofNat_glyphAddress {s : State} (hvalid : validConfig s.cfg 0 = true) (b : Byte) :
    (BitVec.ofNat 16 (s.glyphAddress b)).toNat = s.cfg.fontStart + 5 * (b.toNat % 16) := by
  have hbounds := memory_bounds_of_validConfig hvalid
  simp only [State.glyphAddress, BitVec.toNat_ofNat, BitVec.extractLsb'_toNat, Nat.shiftRight_zero]
  omega

/-- Settles O39: a low nibble is at most 15, and glyph 15 is the last of the 80 bytes. -/
theorem ldFPointsAtTheGlyph : Obligations.LdFPointsAtTheGlyph := by
  intro x
  refine ⟨decodeWord_formatXK_familyF x 0x29#8, fun s hvalid => ?_⟩
  have hglyph := toNat_ofNat_glyphAddress hvalid (s.getV x)
  refine ⟨_, rfl, rfl, hglyph, ?_, ?_, onlyWrites_append (onlyWrites_setI s _) (onlyWrites_setOutcome _ _)⟩
  all_goals
    rw [State.setOutcome_i, State.setI_i, hglyph]
    omega

/-! FX33. -/

/-- The three digits fit a byte unreduced. -/
theorem exists_bcdDigits_eq (b : Byte) :
    ∃ hundreds tens units, bcdDigits b = [hundreds, tens, units] ∧
      hundreds.toNat = b.toNat / 100 ∧ tens.toNat = b.toNat / 10 % 10 ∧ units.toNat = b.toNat % 10 := by
  have hb := b.isLt
  refine ⟨_, _, _, rfl, ?_, ?_, ?_⟩
  all_goals
    rw [BitVec.toNat_ofNat]
    omega

/-- Settles O40: memory has room for the three digits apart, so each stands where it was written. -/
theorem ldBStoresTheDigits : Obligations.LdBStoresTheDigits := by
  intro x
  refine ⟨decodeWord_formatXK_familyF x 0x33#8, fun s hvalid => ?_⟩
  obtain ⟨hundreds, tens, units, hdigits, hhundreds, htens, hunits⟩ := exists_bcdDigits_eq (s.getV x)
  have hexec : exec (.ldB x) s = advanced (s.writeBytes s.i.toNat [hundreds, tens, units]) := by
    rw [← hdigits]
    rfl
  have hroom : 3 ≤ s.cfg.memSize := by
    have hbounds := memory_bounds_of_validConfig hvalid
    omega
  have hread := s.readMem_writeBytes s.i.toNat [hundreds, tens, units] hroom
  rw [hexec, ← hhundreds, ← htens, ← hunits]
  refine ⟨_, rfl, rfl, ?_, ?_, ?_, fun a ha => ?_,
    onlyWrites_append (onlyWrites_writeBytes s _ _) (onlyWrites_setOutcome _ _)⟩
  · exact congrArg BitVec.toNat (hread 0 (by simp))
  · exact congrArg BitVec.toNat (hread 1 (by simp))
  · exact congrArg BitVec.toNat (hread 2 (by simp))
  · exact s.readMem_writeBytes_of_ne s.i.toNat [hundreds, tens, units] a ha

/-! FX65. -/

/-- A data access reduces its address modulo `MEM_SIZE` itself (20_memory.md R20). -/
theorem readMem_mod_memSize (s : State) (a : Nat) : s.readMem (a % s.cfg.memSize) = s.readMem a := by
  rw [State.readMem, State.dataAddress, Nat.mod_mod]
  rfl

/-- The registers after the loads of FX65: `V0` to `Vx` the bytes read, the others as before. -/
theorem getV_setRegs_loadRegs (s : State) (base : Nat) (x r : Reg) :
    (s.setRegs (s.loadRegs base (x.toNat + 1) s.v)).getV r =
      if r ≤ x then s.readMem (base + r.toNat) else s.getV r := by
  have hle : r.toNat < x.toNat + 1 ↔ r ≤ x := Nat.lt_succ_iff
  exact (s.getElem_loadRegs base (x.toNat + 1) s.v r.toNat r.isLt).trans (if_congr hle rfl rfl)

/-- Under a valid configuration the advanced `I` is the sum modulo `MEM_SIZE`, with no reduction to 16 bits besides. -/
theorem toNat_blockAdvance {s : State} (hvalid : validConfig s.cfg 0 = true) (x : Reg) :
    (s.blockAdvance x).toNat =
      if s.cfg.quirks.storeLoadMemUseI then (s.i.toNat + x.toNat + 1) % s.cfg.memSize else s.i.toNat := by
  have hbounds := memory_bounds_of_validConfig hvalid
  have hlt : s.dataAddress (s.i.toNat + x.toNat + 1) < s.cfg.memSize := s.dataAddress_lt _ (by omega)
  rw [State.blockAdvance]
  split
  · rw [BitVec.toNat_ofNat, Nat.mod_eq_of_lt (by omega), State.dataAddress]
  · rfl

/-- Settles O42: the loads read the memory and the `I` of before the loop, and the advance comes after them. -/
theorem blockLoadReadsTheRegisters : Obligations.BlockLoadReadsTheRegisters := by
  intro x
  refine ⟨decodeWord_formatXK_familyF x 0x65#8, fun s hvalid => ?_⟩
  refine ⟨_, rfl, rfl, fun r => ?_, toNat_blockAdvance hvalid x,
    onlyWrites_append (onlyWrites_append (onlyWrites_setRegs s _) (onlyWrites_setI _ _)) (onlyWrites_setOutcome _ _)⟩
  rw [State.getV_setOutcome, State.getV_setI, getV_setRegs_loadRegs, readMem_mod_memSize]

end Sys2Proof
end

section
/-! Keypad and timers (44_keypad_timers.md R73 to R76): what any number of tick boundaries does to the timers and to whatever one
boundary keeps, the two outcomes of FX0A, and the frame of the timer writes. -/

namespace Sys2Proof

open Sys2Proof.Machine

/-! Tick boundaries in sequence (60_exceptions.md R88). -/

/-- What one tick boundary keeps, any number of them keeps. -/
theorem iterate_tickBoundary_keeps {α : Type} {f : State → α} (h : ∀ s, f (tickBoundary s) = f s) (n : Nat) (s : State) :
    f (tickBoundary^[n] s) = f s := by
  have hconj : Function.Semiconj f tickBoundary id := h
  simpa using (hconj.iterate_right n).eq s

/-- `n` tick boundaries lower a timer by `n`, and not below 0. -/
theorem toNat_iterate_tickBoundary {timer : State → Byte} (h : ∀ s, timer (tickBoundary s) = countDown (timer s)) (n : Nat)
    (s : State) : (timer (tickBoundary^[n] s)).toNat = (timer s).toNat - n := by
  have hconj : Function.Semiconj (fun s => (timer s).toNat) tickBoundary Nat.pred := fun s =>
    (congrArg BitVec.toNat (h s)).trans (countDown_toNat (timer s))
  exact ((hconj.iterate_right n).eq s).trans (Nat.pred_iterate _ n)

/-! FX0A. -/

theorem exec_ldVxK_of_least {s : State} {k : Nibble} (x : Reg) (hdown : s.getKey k = true)
    (hleast : ∀ j, j < k → s.getKey j = false) :
    exec (.ldVxK x) s = advanced (s.setV x (BitVec.ofNat 8 k.toNat)) := by
  have hkey : s.leastKey = some k.toNat := (s.leastKey_eq_some k).2 ⟨hdown, hleast⟩
  simp [exec, execLdVxK, hkey]

theorem exec_ldVxK_of_none {s : State} (x : Reg) (hup : ∀ k, s.getKey k = false) : exec (.ldVxK x) s = repeated s := by
  have hkey : s.leastKey = none := s.leastKey_eq_none.2 hup
  simp [exec, execLdVxK, hkey]

/-- The rewind of a repeated step undoes the fetch advance (60_exceptions.md R78). -/
theorem repeated_advancePc (s : State) : repeated s.advancePc = .next { s with outcome := some .repeated } := by
  have hpc : s.pc + 2#16 - 2#16 = s.pc := BitVec.add_sub_cancel _ _
  have hback : s.advancePc.rewindPc = s := congrArg s.setPc hpc
  rw [repeated, hback]
  rfl

theorem step_ldVxK_of_none {s : State} {x : Reg} (hdecode : decode s.fetch = .ok (.ldVxK x))
    (hup : ∀ k, s.getKey k = false) : step s = .next { s with outcome := some .repeated } := by
  have hexec : step s = exec (.ldVxK x) s.advancePc := by simp [step, hdecode]
  rw [hexec, exec_ldVxK_of_none (s := s.advancePc) x hup, repeated_advancePc]

/-- Settles O52: a tick boundary keeps the fetched bytes, the latch and `pc`, so the instruction still waits after any number of
them. -/
theorem keyWaitTakesTheLeastKey : Obligations.KeyWaitTakesTheLeastKey := by
  intro x
  refine ⟨decodeWord_formatXK_familyF x 0x0A#8, fun s k hdown hleast => ?_, fun s hup => exec_ldVxK_of_none x hup,
    fun s ticks hdecode hup => ⟨?_, ?_, ?_, ?_⟩⟩
  · rw [exec_ldVxK_of_least x hdown hleast]
    have hbyte : (BitVec.ofNat 8 k.toNat).toNat = k.toNat := by
      have hk := k.isLt
      rw [BitVec.toNat_ofNat]
      omega
    refine ⟨_, rfl, rfl, fun r => ?_, onlyWrites_setRegs_setOutcome s _ _⟩
    rw [State.getV_setOutcome, State.getV_setV, apply_ite BitVec.toNat, hbyte]
  · have hfetch : (tickBoundary^[ticks] s).fetch = s.fetch := iterate_tickBoundary_keeps (fun _ => rfl) ticks s
    have hkeys : ∀ k, (tickBoundary^[ticks] s).getKey k = s.getKey k := fun k =>
      iterate_tickBoundary_keeps (f := (·.getKey k)) (fun _ => rfl) ticks s
    exact step_ldVxK_of_none ((congrArg decode hfetch).trans hdecode) (fun k => (hkeys k).trans (hup k))
  · exact iterate_tickBoundary_keeps tickBoundary_pc ticks s
  · exact toNat_iterate_tickBoundary tickBoundary_dt ticks s
  · exact toNat_iterate_tickBoundary tickBoundary_st ticks s

/-! FX07, FX15 and FX18. -/

theorem onlyWrites_setDt (s : State) (b : Byte) : OnlyWrites [.dt] s (s.setDt b) := by
  intro e he
  cases e
  case dt => simp at he
  all_goals simp [Same]

theorem onlyWrites_setSt (s : State) (b : Byte) : OnlyWrites [.st] s (s.setSt b) := by
  intro e he
  cases e
  case st => simp at he
  all_goals simp [Same]

/-- Settles O53: each access is one register or timer write, and a timer written counts down from the value written. -/
theorem timerAccess : Obligations.TimerAccess := by
  intro x
  have hdecode := decodeWord_formatXK_familyF x
  refine ⟨hdecode 0x07#8, hdecode 0x15#8, hdecode 0x18#8, fun s => ⟨?_, ?_, ?_⟩⟩
  · exact ⟨_, rfl, rfl, s.getV_setV x s.dt, onlyWrites_setRegs_setOutcome s _ _⟩
  · exact ⟨_, rfl, rfl, rfl, onlyWrites_append (onlyWrites_setDt s _) (onlyWrites_setOutcome _ _),
      fun n => toNat_iterate_tickBoundary tickBoundary_dt n _⟩
  · exact ⟨_, rfl, rfl, rfl, onlyWrites_append (onlyWrites_setSt s _) (onlyWrites_setOutcome _ _),
      fun n => toNat_iterate_tickBoundary tickBoundary_st n _⟩

end Sys2Proof
end

section
/-! How a step ends (60_exceptions.md R77 to R79), that it reads no earlier outcome, and the framebuffer read-out after a batch
(60_exceptions.md R92). -/

namespace Sys2Proof

open Sys2Proof.Machine

/-! The return and the call by what they find on the stack. -/

theorem exec_ret_of_nil {s : State} (h : s.stack = []) :
    exec .ret s = advanced (s.report (.stackUnderflow s.ownAddress)) := by
  simp only [exec, execRet, s.pop_eq_none.2 h]

theorem exec_ret_of_cons {s : State} {top : Word} {rest : List Word} (h : s.stack = top :: rest) :
    exec .ret s = advanced ((s.setStack rest).setPc top) := by
  simp only [exec, execRet, (s.pop_eq_some _ top).2 ⟨rest, h, rfl⟩]

theorem exec_call_of_full {s : State} (nnn : Addr12) (h : s.stackHasRoom = false) :
    exec (.call nnn) s = advanced (s.report (.stackOverflow s.ownAddress)) := by
  simp only [exec, execCall, (s.push_eq_none _).2 h]

theorem exec_call_of_room {s : State} (nnn : Addr12) (h : s.stackHasRoom = true) :
    exec (.call nnn) s = advanced ((s.setStack (s.pc :: s.stack)).setPc (nnn.setWidth 16)) := by
  simp only [exec, execCall, (s.push_eq_some _ _).2 ⟨h, rfl⟩]

/-! The two ways execution ends. -/

/-- Execution completes, or it repeats the instruction; only the key wait and the draw repeat (60_exceptions.md R77, R78). -/
theorem exec_advanced_or_repeated (i : Instr) (s : State) :
    (∃ t, exec i s = advanced t) ∨
      (exec i s = repeated s ∧ ((∃ x, i = .ldVxK x) ∨ ∃ x y n, i = .drw x y n)) := by
  cases i with
  | ret =>
    cases hstack : s.stack with
    | nil => exact .inl ⟨_, exec_ret_of_nil hstack⟩
    | cons top rest => exact .inl ⟨_, exec_ret_of_cons hstack⟩
  | call nnn =>
    cases hroom : s.stackHasRoom with
    | false => exact .inl ⟨_, exec_call_of_full nnn hroom⟩
    | true => exact .inl ⟨_, exec_call_of_room nnn hroom⟩
  | addI x =>
    by_cases hwrap : s.cfg.memSize ≤ s.i.toNat + (s.getV x).toNat
    · exact .inl ⟨_, if_pos hwrap⟩
    · exact .inl ⟨_, if_neg hwrap⟩
  | ldVxK x =>
    cases hkey : s.leastKey with
    | some k => exact .inl ⟨s.setV x (BitVec.ofNat 8 k), by simp only [exec, execLdVxK, hkey]⟩
    | none => exact .inr ⟨exec_ldVxK_of_none x (s.leastKey_eq_none.1 hkey), .inl ⟨x, rfl⟩⟩
  | drw x y n =>
    by_cases hgate : s.drawGated = true
    · exact .inr ⟨if_pos hgate, .inr ⟨x, y, n, rfl⟩⟩
    · exact .inl ⟨_, if_neg hgate⟩
  | _ => exact .inl ⟨_, rfl⟩

/-! The outcome of an earlier step is not read: each operation that branches or recurs gives the same with any outcome before it. -/

theorem skipIf_withOutcome (taken : Bool) (s : State) (earlier : Option StepOutcome) :
    skipIf taken { s with outcome := earlier } = skipIf taken s := by
  cases taken <;> rfl

theorem advanced_logicReset_withOutcome (s : State) (earlier : Option StepOutcome) :
    advanced { s with outcome := earlier }.logicReset = advanced s.logicReset := by
  unfold State.logicReset
  cases s.cfg.quirks.logicOpsResetVf <;> rfl

theorem writeBytes_withOutcome (s : State) (a : Nat) (bytes : List Byte) (earlier : Option StepOutcome) :
    { s with outcome := earlier }.writeBytes a bytes = { s.writeBytes a bytes with outcome := earlier } := by
  induction bytes generalizing s a with
  | nil => rfl
  | cons b rest ih => exact ih (s.writeMem a b) (a + 1)

theorem loadRegs_withOutcome (s : State) (base count : Nat) (v : Vector Byte 16) (earlier : Option StepOutcome) :
    { s with outcome := earlier }.loadRegs base count v = s.loadRegs base count v := by
  induction count with
  | zero => rfl
  | succ count ih => rw [State.loadRegs, ih]; rfl

theorem drawRows_withOutcome (s : State) (x0 y0 count : Nat) (c : Canvas) (earlier : Option StepOutcome) :
    drawRows { s with outcome := earlier } x0 y0 count c = drawRows s x0 y0 count c := by
  induction count with
  | zero => rfl
  | succ count ih => rw [drawRows, ih]; rfl

theorem exec_withOutcome (i : Instr) (s : State) (earlier : Option StepOutcome) :
    exec i { s with outcome := earlier } = exec i s := by
  cases i with
  | seImm | sneImm | seReg | sneReg | skp | sknp => exact skipIf_withOutcome _ s earlier
  | ldReg x y | orReg x y | andReg x y | xorReg x y =>
    exact advanced_logicReset_withOutcome (s.setV x _) earlier
  | ret =>
    by_cases hnil : s.stack = []
    · exact (exec_ret_of_nil (s := { s with outcome := earlier }) hnil).trans (exec_ret_of_nil hnil).symm
    · obtain ⟨top, rest, hcons⟩ := List.exists_cons_of_ne_nil hnil
      exact (exec_ret_of_cons (s := { s with outcome := earlier }) hcons).trans (exec_ret_of_cons hcons).symm
  | call nnn =>
    cases hroom : s.stackHasRoom with
    | false =>
      exact (exec_call_of_full (s := { s with outcome := earlier }) nnn hroom).trans (exec_call_of_full nnn hroom).symm
    | true =>
      exact (exec_call_of_room (s := { s with outcome := earlier }) nnn hroom).trans (exec_call_of_room nnn hroom).symm
  | drw x y n =>
    simp only [exec, execDrw, drawRows_withOutcome]
    rfl
  | ldMemVx x =>
    simp only [exec, execLdMemVx, writeBytes_withOutcome]
    rfl
  | ldVxMem x =>
    simp only [exec, execLdVxMem, loadRegs_withOutcome]
    rfl
  | _ => rfl

theorem step_withOutcome (s : State) (earlier : Option StepOutcome) :
    step { s with outcome := earlier } = step s := by
  have hfetch : { s with outcome := earlier }.fetch = s.fetch := rfl
  cases hdecode : decode s.fetch with
  | error e =>
    rw [step_of_decode_error (hfetch ▸ hdecode), step_of_decode_error hdecode]
    rfl
  | ok i =>
    rw [step_of_decode_ok (hfetch ▸ hdecode), step_of_decode_ok hdecode]
    exact exec_withOutcome i s.advancePc earlier

/-- Settles O9: a failing fetch is skipped and logged, any other step ends as the execution of its instruction does, and a repeat
rewinds the fetch advance. -/
theorem everyStepEndsWithOneOutcome : Obligations.EveryStepEndsWithOneOutcome := by
  intro s
  cases hdecode : decode s.fetch with
  | error e =>
    have hstep := step_of_decode_error hdecode
    exact ⟨_, .decodeFailed, hstep, rfl, nofun, iff_of_true rfl ⟨e, rfl⟩, fun _ => ⟨rfl, _, rfl⟩,
      fun earlier => (step_withOutcome s earlier).trans hstep⟩
  | ok i =>
    have hstep := step_of_decode_ok hdecode
    obtain ⟨t, hexec⟩ | ⟨hexec, hi⟩ := exec_advanced_or_repeated i s.advancePc
    · have hnext := hstep.trans hexec
      exact ⟨_, .advanced, hnext, rfl, nofun, iff_of_false nofun nofun, nofun,
        fun earlier => (step_withOutcome s earlier).trans hnext⟩
    · have hnext := hstep.trans (hexec.trans (repeated_advancePc s))
      refine ⟨_, .repeated, hnext, rfl, fun _ => ⟨rfl, ?_⟩, iff_of_false nofun nofun, nofun,
        fun earlier => (step_withOutcome s earlier).trans hnext⟩
      simpa only [Except.ok.injEq] using hi

/-! The read-out. -/

theorem tick_of_batch_running {pending : List (List InputEvent)} {s b : State}
    (h : batch s.cfg.cyclesPerTick pending s = .running b) :
    tick pending s = .ticked (readOut b).1 (tickBoundary (readOut b).2) := by
  rw [tick, h]

/-- Settles O55: the image is pushed exactly if `dirty`, and the tick's one read-out is that of the state the batch leaves. -/
theorem readOutPushesOnceIfDirty : Obligations.ReadOutPushesOnceIfDirty := by
  intro s
  refine ⟨fun hdirty => ⟨?_, readOut_snd s⟩, fun hclean => ?_, ?_, fun pending t b pushed hbatch htick => ?_⟩
  · rw [readOut_fst, if_pos hdirty]
  · simp only [readOut, readFramebuffer, hclean]
  · rw [readOut_snd]
  · rw [tick_of_batch_running hbatch, TickResult.ticked.injEq] at htick
    rw [← htick.1, readOut_fst]

end Sys2Proof
end

section
/-! Encoding and decode (30_encoding.md R30, R31): what a word of each format and family decodes as, what a word that decodes is
the encoding of, and the words that match a row of the opcode map. -/

namespace Sys2Proof

open Sys2Proof.Machine

/-! A word of each format decodes by its family and its selector. -/

theorem decodeWord_formatA_call (nnn : Addr12) : decodeWord (formatA 0x2#4 nnn) = .ok (.call nnn) := by
  obtain ⟨hf, hnnn, -⟩ := fields_formatA 0x2#4 nnn
  simp [decodeWord, hf, hnnn]

theorem decodeWord_formatA_ldI (nnn : Addr12) : decodeWord (formatA 0xA#4 nnn) = .ok (.ldI nnn) := by
  obtain ⟨hf, hnnn, -⟩ := fields_formatA 0xA#4 nnn
  simp [decodeWord, hf, hnnn]

theorem decodeWord_formatA_jpV0 (nnn : Addr12) :
    decodeWord (formatA 0xB#4 nnn) = .ok (.jpV0 (nnn.extractLsb' 8 4) nnn) := by
  obtain ⟨hf, hnnn, hx⟩ := fields_formatA 0xB#4 nnn
  simp [decodeWord, hf, hnnn, hx]

theorem decodeWord_formatXK_addImm (x : Reg) (nn : Byte) : decodeWord (formatXK 0x7#4 x nn) = .ok (.addImm x nn) := by
  obtain ⟨hf, hx, hnn⟩ := fields_formatXK 0x7#4 x nn
  simp [decodeWord, hf, hx, hnn]

theorem decodeWord_formatXK_rnd (x : Reg) (nn : Byte) : decodeWord (formatXK 0xC#4 x nn) = .ok (.rnd x nn) := by
  obtain ⟨hf, hx, hnn⟩ := fields_formatXK 0xC#4 x nn
  simp [decodeWord, hf, hx, hnn]

theorem decodeWord_formatXYN_drw (x y : Reg) (n : Nibble) : decodeWord (formatXYN 0xD#4 x y n) = .ok (.drw x y n) := by
  obtain ⟨hf, hx, hy, hn⟩ := fields_formatXYN 0xD#4 x y n
  simp [decodeWord, hf, hx, hy, hn]

/-- Family E: the low byte is the selector. -/
theorem decodeWord_formatXK_familyE (x : Reg) (nn : Byte) : decodeWord (formatXK 0xE#4 x nn) = decodeE x nn := by
  obtain ⟨hf, hx, hnn⟩ := fields_formatXK 0xE#4 x nn
  simp [decodeWord, hf, hx, hnn]

theorem decodeWord_encode (i : Instr) (h : i.wellFormed = true) : decodeWord (encode i) = .ok i := by
  cases i with
  | cls | ret => decide
  | jp nnn => exact decodeWord_formatA_jp nnn
  | call nnn => exact decodeWord_formatA_call nnn
  | seImm x nn => exact decodeWord_formatXK_seImm x nn
  | sneImm x nn => exact decodeWord_formatXK_sneImm x nn
  | seReg x y => exact decodeWord_formatXYN_seReg x y 0x0#4
  | ldImm x nn => exact decodeWord_formatXK_ldImm x nn
  | addImm x nn => exact decodeWord_formatXK_addImm x nn
  | sneReg x y => exact decodeWord_formatXYN_sneReg x y 0x0#4
  | ldI nnn => exact decodeWord_formatA_ldI nnn
  | jpV0 x nnn =>
    have hx : x = nnn.extractLsb' 8 4 := beq_iff_eq.1 h
    rw [hx]
    exact decodeWord_formatA_jpV0 nnn
  | rnd x nn => exact decodeWord_formatXK_rnd x nn
  | drw x y n => exact decodeWord_formatXYN_drw x y n
  | ldReg x y | orReg x y | andReg x y | xorReg x y | addReg x y | subReg x y | shr x y | subn x y | shl x y =>
    exact decodeWord_formatXYN_family8 x y _
  | skp x | sknp x => exact decodeWord_formatXK_familyE x _
  | ldVxDt x | ldVxK x | ldDtVx x | ldStVx x | addI x | ldF x | ldB x | ldMemVx x | ldVxMem x =>
    exact decodeWord_formatXK_familyF x _

/-- Settles O1: the bytes of a word read back as the word, and the word decodes by its format. -/
theorem decodeOfEncode : Obligations.DecodeOfEncode := by
  intro i hwf
  rw [encodeBytes, decode_bytesOfWord]
  exact decodeWord_encode i hwf

/-! What decodes is the encoding of the word it was decoded from, selector by selector. -/

/-- `i` is well formed and its word is `w`. -/
def Encodes (i : Instr) (w : Word) : Prop := i.wellFormed = true ∧ encode i = w

theorem encodes_of_decode0 {w : Word} {i : Instr} (h : decode0 w = .ok i) : Encodes i w := by
  simp only [decode0] at h
  split_ifs at h with hw hw
  all_goals
    cases h
    exact ⟨rfl, hw.symm⟩

theorem encodes_of_decode8 {x y : Reg} {n : Nibble} {i : Instr} (h : decode8 x y n = .ok i) :
    Encodes i (formatXYN 0x8#4 x y n) := by
  unfold decode8 at h
  split at h
  case h_10 => cases h
  -- the nine selectors of an instruction
  all_goals
    next hn =>
    cases h
    exact ⟨rfl, congrArg (formatXYN 0x8#4 x y) (BitVec.eq_of_toNat_eq hn.symm)⟩

theorem encodes_of_decodeE {x : Reg} {nn : Byte} {i : Instr} (h : decodeE x nn = .ok i) :
    Encodes i (formatXK 0xE#4 x nn) := by
  simp only [decodeE] at h
  split_ifs at h with hnn hnn
  all_goals
    cases h
    exact ⟨rfl, congrArg (formatXK 0xE#4 x) hnn.symm⟩

theorem encodes_of_decodeF {x : Reg} {nn : Byte} {i : Instr} (h : decodeF x nn = .ok i) :
    Encodes i (formatXK 0xF#4 x nn) := by
  simp only [decodeF] at h
  split_ifs at h with hnn hnn hnn hnn hnn hnn hnn hnn hnn
  all_goals
    cases h
    exact ⟨rfl, congrArg (formatXK 0xF#4 x) hnn.symm⟩

/-! A word of a known family is the format's word of that family and its other fields. -/

theorem formatA_fieldNNN {w : Word} {f : Nibble} (hf : (fieldF w).toNat = f.toNat) : formatA f (fieldNNN w) = w := by
  rw [← BitVec.eq_of_toNat_eq hf, formatA_fields]

theorem formatXK_fieldX {w : Word} {f : Nibble} (hf : (fieldF w).toNat = f.toNat) :
    formatXK f (fieldX w) (fieldNN w) = w := by
  rw [← BitVec.eq_of_toNat_eq hf, formatXK_fields]

theorem formatXYN_fieldX {w : Word} {f : Nibble} (hf : (fieldF w).toNat = f.toNat) :
    formatXYN f (fieldX w) (fieldY w) (fieldN w) = w := by
  rw [← BitVec.eq_of_toNat_eq hf, formatXYN_fields]

/-- BNNN's two fields overlap (40_control_flow.md R44). -/
theorem fieldX_eq_extract_fieldNNN (w : Word) : fieldX w = (fieldNNN w).extractLsb' 8 4 := by
  obtain ⟨-, -, hx⟩ := fields_formatA (fieldF w) (fieldNNN w)
  rwa [formatA_fields] at hx

theorem encodes_of_decodeWord {w : Word} {i : Instr} (h : decodeWord w = .ok i) : Encodes i w := by
  unfold decodeWord at h
  split at h
  case h_1 => exact encodes_of_decode0 h
  case h_9 hf => exact formatXYN_fieldX (f := 0x8#4) hf ▸ encodes_of_decode8 h
  case h_15 hf => exact formatXK_fieldX (f := 0xE#4) hf ▸ encodes_of_decodeE h
  case h_16 =>
    have hlt := (fieldF w).isLt
    have hf : (fieldF w).toNat = 0xF := by
      simp only [imp_false] at *
      omega
    exact formatXK_fieldX (f := 0xF#4) hf ▸ encodes_of_decodeF h
  case h_6 hf | h_10 hf =>
    split at h
    next hn =>
      cases h
      exact ⟨rfl, (congrArg (formatXYN _ (fieldX w) (fieldY w)) hn.symm).trans (formatXYN_fieldX hf)⟩
    next => cases h
  case h_2 hf | h_3 hf | h_11 hf =>
    cases h
    exact ⟨rfl, formatA_fieldNNN hf⟩
  case h_12 hf =>
    cases h
    exact ⟨beq_iff_eq.2 (fieldX_eq_extract_fieldNNN w), formatA_fieldNNN hf⟩
  case h_14 hf =>
    cases h
    exact ⟨rfl, formatXYN_fieldX hf⟩
  -- the families with an immediate byte
  all_goals
    next hf =>
    cases h
    exact ⟨rfl, formatXK_fieldX hf⟩

/-- Settles O2: decode keeps every field of the word, so encoding puts the word together again. -/
theorem encodeOfDecode : Obligations.EncodeOfDecode := by
  intro byte0 byte1 i h
  obtain ⟨hwf, hword⟩ : Encodes i (wordOfBytes byte0 byte1) := encodes_of_decodeWord h
  exact ⟨hwf, by rw [encodeBytes, hword, bytesOfWord_wordOfBytes]⟩

/-! The rows of the opcode map. -/

theorem encode_and_mask (i : Instr) : encode i &&& i.row.mask = i.row.pattern := by
  cases i with
  | cls => exact Laws.OpcodeRow.cls
  | ret => exact Laws.OpcodeRow.ret
  | jp nnn | call nnn | ldI nnn | jpV0 _ nnn => exact formatA_and_mask _ nnn
  | seImm x nn | sneImm x nn | ldImm x nn | addImm x nn | rnd x nn =>
    rw [encode, formatXK_eq_formatA]
    exact formatA_and_mask _ _
  | drw x y n => exact Laws.OpcodeRow.drw x y n
  | seReg x y | ldReg x y | orReg x y | andReg x y | xorReg x y | addReg x y | subReg x y | shr x y | subn x y | shl x y
  | sneReg x y => exact formatXYN_and_mask _ x y _
  | skp x | sknp x | ldVxDt x | ldVxK x | ldDtVx x | ldStVx x | addI x | ldF x | ldB x | ldMemVx x | ldVxMem x =>
    exact formatXK_and_mask _ x _

/-- A mask that covers the family fixes it. -/
theorem fieldF_eq_of_and_mask {w v : Word} (h : w &&& 0xF000#16 = v &&& 0xF000#16) : fieldF w = fieldF v := by
  rw [← formatA_fields w, ← formatA_fields v, formatA_and_mask, formatA_and_mask] at h
  have hf := congrArg fieldF h
  rwa [(fields_formatA _ _).1, (fields_formatA _ _).1] at hf

theorem exists_formatA_of_and_mask {w : Word} {f : Nibble} {nnn' : Addr12}
    (h : w &&& 0xF000#16 = formatA f nnn' &&& 0xF000#16) : ∃ nnn, w = formatA f nnn := by
  have hf := fieldF_eq_of_and_mask h
  rw [(fields_formatA f nnn').1] at hf
  exact ⟨fieldNNN w, by rw [← hf, formatA_fields]⟩

theorem exists_formatXK_of_and_mask {w : Word} {f : Nibble} {x' : Reg} {nn' : Byte}
    (h : w &&& 0xF000#16 = formatXK f x' nn' &&& 0xF000#16) : ∃ x nn, w = formatXK f x nn := by
  have hf := fieldF_eq_of_and_mask h
  rw [(fields_formatXK f x' nn').1] at hf
  exact ⟨fieldX w, fieldNN w, by rw [← hf, formatXK_fields]⟩

theorem exists_formatXYN_of_and_mask {w : Word} {f : Nibble} {x' y' : Reg} {n' : Nibble}
    (h : w &&& 0xF000#16 = formatXYN f x' y' n' &&& 0xF000#16) : ∃ x y n, w = formatXYN f x y n := by
  have hf := fieldF_eq_of_and_mask h
  rw [(fields_formatXYN f x' y' n').1] at hf
  exact ⟨fieldX w, fieldY w, fieldN w, by rw [← hf, formatXYN_fields]⟩

/-- A mask that covers the family and the low nibble leaves `x` and `y` free. -/
theorem exists_formatXY_of_and_mask {w : Word} {f : Nibble} {x' y' : Reg} {n : Nibble}
    (h : w &&& 0xF00F#16 = formatXYN f x' y' n &&& 0xF00F#16) : ∃ x y, w = formatXYN f x y n := by
  rw [← formatXYN_fields w, formatXYN_and_mask, formatXYN_and_mask] at h
  obtain ⟨hf, -, -, hn⟩ := fields_formatXYN (fieldF w) 0#4 0#4 (fieldN w)
  obtain ⟨hf', -, -, hn'⟩ := fields_formatXYN f 0#4 0#4 n
  rw [h, hf'] at hf
  rw [h, hn'] at hn
  exact ⟨fieldX w, fieldY w, by rw [hf, hn, formatXYN_fields]⟩

/-- A mask that covers the family and the low byte leaves `x` free. -/
theorem exists_formatX_of_and_mask {w : Word} {f : Nibble} {x' : Reg} {nn : Byte}
    (h : w &&& 0xF0FF#16 = formatXK f x' nn &&& 0xF0FF#16) : ∃ x, w = formatXK f x nn := by
  rw [← formatXK_fields w, formatXK_and_mask, formatXK_and_mask] at h
  obtain ⟨hf, -, hnn⟩ := fields_formatXK (fieldF w) 0#4 (fieldNN w)
  obtain ⟨hf', -, hnn'⟩ := fields_formatXK f 0#4 nn
  rw [h, hf'] at hf
  rw [h, hnn'] at hnn
  exact ⟨fieldX w, by rw [hf, hnn, formatXK_fields]⟩

/-- A word that agrees with an instruction's own word under the row's mask decodes as an instruction of that row. -/
theorem exists_decodeWord_of_and_mask {w : Word} (i : Instr) (h : w &&& i.row.mask = encode i &&& i.row.mask) :
    ∃ j, decodeWord w = .ok j ∧ j.row = i.row := by
  cases i with
  | cls | ret =>
    have hw : w = _ := (BitVec.and_allOnes (x := w)).symm.trans (h.trans BitVec.and_allOnes)
    subst hw
    exact ⟨_, rfl, rfl⟩
  | jp =>
    obtain ⟨nnn, rfl⟩ := exists_formatA_of_and_mask h
    exact ⟨_, decodeWord_formatA_jp nnn, rfl⟩
  | call =>
    obtain ⟨nnn, rfl⟩ := exists_formatA_of_and_mask h
    exact ⟨_, decodeWord_formatA_call nnn, rfl⟩
  | ldI =>
    obtain ⟨nnn, rfl⟩ := exists_formatA_of_and_mask h
    exact ⟨_, decodeWord_formatA_ldI nnn, rfl⟩
  | jpV0 =>
    obtain ⟨nnn, rfl⟩ := exists_formatA_of_and_mask h
    exact ⟨_, decodeWord_formatA_jpV0 nnn, rfl⟩
  | seImm =>
    obtain ⟨x, nn, rfl⟩ := exists_formatXK_of_and_mask h
    exact ⟨_, decodeWord_formatXK_seImm x nn, rfl⟩
  | sneImm =>
    obtain ⟨x, nn, rfl⟩ := exists_formatXK_of_and_mask h
    exact ⟨_, decodeWord_formatXK_sneImm x nn, rfl⟩
  | ldImm =>
    obtain ⟨x, nn, rfl⟩ := exists_formatXK_of_and_mask h
    exact ⟨_, decodeWord_formatXK_ldImm x nn, rfl⟩
  | addImm =>
    obtain ⟨x, nn, rfl⟩ := exists_formatXK_of_and_mask h
    exact ⟨_, decodeWord_formatXK_addImm x nn, rfl⟩
  | rnd =>
    obtain ⟨x, nn, rfl⟩ := exists_formatXK_of_and_mask h
    exact ⟨_, decodeWord_formatXK_rnd x nn, rfl⟩
  | drw =>
    obtain ⟨x, y, n, rfl⟩ := exists_formatXYN_of_and_mask h
    exact ⟨_, decodeWord_formatXYN_drw x y n, rfl⟩
  | seReg =>
    obtain ⟨x, y, rfl⟩ := exists_formatXY_of_and_mask h
    exact ⟨_, decodeWord_formatXYN_seReg x y 0x0#4, rfl⟩
  | sneReg =>
    obtain ⟨x, y, rfl⟩ := exists_formatXY_of_and_mask h
    exact ⟨_, decodeWord_formatXYN_sneReg x y 0x0#4, rfl⟩
  | ldReg | orReg | andReg | xorReg | addReg | subReg | shr | subn | shl =>
    obtain ⟨x, y, rfl⟩ := exists_formatXY_of_and_mask h
    exact ⟨_, decodeWord_formatXYN_family8 x y _, rfl⟩
  | skp | sknp =>
    obtain ⟨x, rfl⟩ := exists_formatX_of_and_mask h
    exact ⟨_, decodeWord_formatXK_familyE x _, rfl⟩
  | ldVxDt | ldVxK | ldDtVx | ldStVx | addI | ldF | ldB | ldMemVx | ldVxMem =>
    obtain ⟨x, rfl⟩ := exists_formatX_of_and_mask h
    exact ⟨_, decodeWord_formatXK_familyF x _, rfl⟩

/-- Settles O3: a word that decodes is its instruction's encoding, which matches the row, and a word that matches a row differs
from an encoding of that row in its operand fields alone. -/
theorem decodeFollowsTheOpcodeMap : Obligations.DecodeFollowsTheOpcodeMap := by
  refine ⟨fun w i h => ?_, fun w i h => ?_⟩
  · obtain ⟨-, rfl⟩ := encodes_of_decodeWord h
    exact encode_and_mask i
  · exact exists_decodeWord_of_and_mask i (h.trans (encode_and_mask i).symm)

/-! Words written out, and where the fields of a word lie in its bytes. -/

/-- Settles O5, word by word. -/
theorem decodeOfWrittenOutWords : Obligations.DecodeOfWrittenOutWords := by
  unfold Obligations.DecodeOfWrittenOutWords
  decide

/-- Settles O6: each field's value in the word's, and the word's value in its bytes'. -/
theorem wordFieldsLieWhereStated : Obligations.WordFieldsLieWhereStated := by
  refine ⟨fun i => rfl, fun byte0 byte1 => ?_⟩
  have hb0 := byte0.isLt
  have hb1 := byte1.isLt
  have hw := toNat_wordOfBytes byte0 byte1
  refine ⟨hw, ?_, ?_, ?_, ?_, BitVec.eq_of_toNat_eq ?_, ?_⟩
  · rw [toNat_fieldF, hw]; omega
  · rw [toNat_fieldX, hw]; omega
  · rw [toNat_fieldY, hw]; omega
  · rw [toNat_fieldN, hw]; omega
  · rw [toNat_fieldNN, hw]; omega
  · rw [toNat_fieldNNN, hw]; omega

end Sys2Proof
end

section
/-! The step (30_encoding.md R34): what it fetches, which elements each instruction and so each step can write (10_state.md),
and what a step logs (60_exceptions.md R87). -/

namespace Sys2Proof

open Sys2Proof.Machine

/-! The fetch (20_memory.md R22). -/

/-- Inside the byte buffer a data address is the address itself. -/
theorem readMem_of_lt {s : State} {a : Nat} (h : a < s.cfg.memSize) : s.readMem a = Memory.readAt s.cfg s.mem a := by
  rw [State.readMem, State.dataAddress, Nat.mod_eq_of_lt h]

theorem fetch_eq_pair {s : State} (h : s.pc.toNat + 1 < s.cfg.memSize) :
    s.fetch = [s.readMem s.pc.toNat, s.readMem (s.pc.toNat + 1)] := by
  rw [readMem_of_lt h, readMem_of_lt (by omega)]
  exact if_pos h

/-- Settles O7: the two tests of the fetch, and inside the byte buffer the data read is the fetch's. -/
theorem fetchStopsAtTheEndOfMemory : Obligations.FetchStopsAtTheEndOfMemory := by
  refine fun s => ⟨fetch_eq_pair, fun hlast => ?_, fetch_eq_nil_of_memSize_le⟩
  have hpair : ¬s.pc.toNat + 1 < s.cfg.memSize := by omega
  have hbyte : s.pc.toNat < s.cfg.memSize := by omega
  rw [readMem_of_lt hbyte]
  simp only [State.fetch, if_neg hpair, if_pos hbyte]

/-- Settles O8: the step's branch for bytes that decode. -/
theorem stepRunsTheDecodedInstruction : Obligations.StepRunsTheDecodedInstruction :=
  fun _ _ h => step_of_decode_ok h

/-! Frames of the state writes that no earlier lemma covers, and of the two ways execution ends. -/

theorem onlyWrites_refl (ws : List Element) (s : State) : OnlyWrites ws s s := by
  intro e _
  cases e
  all_goals simp [Same]

theorem onlyWrites_mono {ws vs : List Element} {s t : State} (h : OnlyWrites ws s t) (hsub : ws ⊆ vs) :
    OnlyWrites vs s t :=
  fun e he => h e fun hmem => he (hsub hmem)

theorem onlyWrites_setPc (s : State) (target : Word) : OnlyWrites [.pc] s (s.setPc target) := by
  intro e he
  cases e
  case pc => simp at he
  all_goals simp [Same]

theorem onlyWrites_setStack (s : State) (l : List Word) : OnlyWrites [.stack] s (s.setStack l) := by
  intro e he
  cases e
  case stack => simp at he
  all_goals simp [Same]

theorem onlyWrites_report (s : State) (event : LogEvent) : OnlyWrites [.log] s (s.report event) := by
  intro e he
  cases e
  case log => simp at he
  all_goals simp [Same]

theorem onlyWrites_logicReset (s : State) : OnlyWrites [.regs] s s.logicReset := by
  rw [State.logicReset_eq]
  exact onlyWrites_setRegs s _

/-- Drawing the next random byte writes the count of draws alone (log entry 2). -/
theorem onlyWrites_randDraws (s : State) (n : Nat) : OnlyWrites [.randDraws] s { s with randDraws := n } := by
  intro e he
  cases e
  case randDraws => simp at he
  all_goals simp [Same, State.getV, State.getKey, State.readMem, State.dataAddress]

/-- Clearing the screen writes `fb` and `dirty` (43_display.md R65). -/
theorem onlyWrites_fb_dirty (s : State) (fb : List Bool) : OnlyWrites [.fb, .dirty] s { s with fb := fb, dirty := true } := by
  intro e he
  cases e
  case fb | dirty => simp at he
  all_goals simp [Same, State.getV, State.getKey, State.readMem, State.dataAddress]

/-- A draw writes `fb`, `dirty` and the draw gate before the flag (43_display.md R67). -/
theorem onlyWrites_fb_dirty_drew (s : State) (fb : List Bool) :
    OnlyWrites [.fb, .dirty, .drewThisTick] s { s with fb := fb, dirty := true, drewThisTick := true } := by
  intro e he
  cases e
  case fb | dirty | drewThisTick => simp at he
  all_goals simp [Same, State.getV, State.getKey, State.readMem, State.dataAddress]

theorem onlyWrites_of_advanced {ws vs : List Element} {s u t : State} (hu : OnlyWrites vs s u)
    (hsub : vs ⊆ .pc :: .outcome :: ws) (h : advanced u = .next t) : OnlyWrites (.pc :: .outcome :: ws) s t := by
  cases h
  exact onlyWrites_mono (onlyWrites_append hu (onlyWrites_setOutcome u _)) (by simp [hsub])

theorem onlyWrites_of_repeated {ws : List Element} {s t : State} (h : repeated s = .next t) :
    OnlyWrites (.pc :: .outcome :: ws) s t := by
  cases h
  exact onlyWrites_mono (onlyWrites_setPc_setOutcome s _ _) (by simp)

theorem onlyWrites_of_skipIf {ws : List Element} {s t : State} {taken : Bool} (h : skipIf taken s = .next t) :
    OnlyWrites (.pc :: .outcome :: ws) s t := by
  cases taken with
  | true => exact onlyWrites_of_advanced (onlyWrites_setPc s _) (by simp) h
  | false => exact onlyWrites_of_advanced (onlyWrites_refl [] s) (by simp) h

theorem exec_ldVxK_of_leastKey {s : State} {k : Nat} (x : Reg) (h : s.leastKey = some k) :
    exec (.ldVxK x) s = advanced (s.setV x (BitVec.ofNat 8 k)) := by
  simp only [exec, execLdVxK, h]

/-- The frame of each instruction's execution. -/
theorem onlyWrites_of_exec {i : Instr} {s t : State} (h : exec i s = .next t) :
    OnlyWrites (.pc :: .outcome :: writesOf i) s t := by
  cases i with
  | cls => exact onlyWrites_of_advanced (onlyWrites_fb_dirty s _) (by simp [writesOf]) h
  | ret =>
    cases hstack : s.stack with
    | nil =>
      rw [exec_ret_of_nil hstack] at h
      exact onlyWrites_of_advanced (onlyWrites_report s _) (by simp [writesOf]) h
    | cons top rest =>
      rw [exec_ret_of_cons hstack] at h
      exact onlyWrites_of_advanced (onlyWrites_append (onlyWrites_setStack s _) (onlyWrites_setPc _ _)) (by simp [writesOf]) h
  | call nnn =>
    cases hroom : s.stackHasRoom with
    | false =>
      rw [exec_call_of_full nnn hroom] at h
      exact onlyWrites_of_advanced (onlyWrites_report s _) (by simp [writesOf]) h
    | true =>
      rw [exec_call_of_room nnn hroom] at h
      exact onlyWrites_of_advanced (onlyWrites_append (onlyWrites_setStack s _) (onlyWrites_setPc _ _)) (by simp [writesOf]) h
  | jp | jpV0 => exact onlyWrites_of_advanced (onlyWrites_setPc s _) (by simp) h
  | seImm | sneImm | seReg | sneReg | skp | sknp => exact onlyWrites_of_skipIf h
  | ldImm | addImm | addReg | subReg | shr | subn | shl | ldVxDt =>
    exact onlyWrites_of_advanced (onlyWrites_setRegs s _) (by simp [writesOf]) h
  | ldReg x y | orReg x y | andReg x y | xorReg x y =>
    exact onlyWrites_of_advanced (onlyWrites_append (onlyWrites_setRegs s _) (onlyWrites_logicReset _)) (by simp [writesOf]) h
  | ldI | ldF => exact onlyWrites_of_advanced (onlyWrites_setI s _) (by simp [writesOf]) h
  | rnd =>
    exact onlyWrites_of_advanced (onlyWrites_append (onlyWrites_setRegs s _) (onlyWrites_randDraws _ _)) (by simp [writesOf]) h
  | drw x y n =>
    by_cases hgate : s.drawGated = true
    · exact onlyWrites_of_repeated ((if_pos hgate).symm.trans h)
    · exact onlyWrites_of_advanced (onlyWrites_append (onlyWrites_fb_dirty_drew s _) (onlyWrites_setRegs _ _))
        (by simp [writesOf]) ((if_neg hgate).symm.trans h)
  | ldVxK x =>
    cases hkey : s.leastKey with
    | some k =>
      exact onlyWrites_of_advanced (onlyWrites_setRegs s _) (by simp [writesOf])
        ((exec_ldVxK_of_leastKey x hkey).symm.trans h)
    | none => exact onlyWrites_of_repeated ((exec_ldVxK_of_none x (s.leastKey_eq_none.1 hkey)).symm.trans h)
  | ldDtVx => exact onlyWrites_of_advanced (onlyWrites_setDt s _) (by simp [writesOf]) h
  | ldStVx => exact onlyWrites_of_advanced (onlyWrites_setSt s _) (by simp [writesOf]) h
  | addI x =>
    by_cases hwrap : s.cfg.memSize ≤ s.i.toNat + (s.getV x).toNat
    · exact onlyWrites_of_advanced (onlyWrites_append (onlyWrites_setI s _) (onlyWrites_setRegs _ _)) (by simp [writesOf])
        ((if_pos hwrap).symm.trans h)
    · exact onlyWrites_of_advanced (onlyWrites_setI s _) (by simp [writesOf]) ((if_neg hwrap).symm.trans h)
  | ldB => exact onlyWrites_of_advanced (onlyWrites_writeBytes s _ _) (by simp [writesOf]) h
  | ldMemVx =>
    exact onlyWrites_of_advanced (onlyWrites_append (onlyWrites_writeBytes s _ _) (onlyWrites_setI _ _)) (by simp [writesOf]) h
  | ldVxMem =>
    exact onlyWrites_of_advanced (onlyWrites_append (onlyWrites_setRegs s _) (onlyWrites_setI _ _)) (by simp [writesOf]) h

/-- The step's frame is its instruction's: the fetch advance writes `pc` alone. -/
theorem onlyWrites_of_step {i : Instr} {s t : State} (hdecode : decode s.fetch = .ok i) (h : step s = .next t) :
    OnlyWrites (.pc :: .outcome :: writesOf i) s t := by
  rw [step_of_decode_ok hdecode] at h
  exact onlyWrites_mono (onlyWrites_append (onlyWrites_setPc s _) (onlyWrites_of_exec h)) (by simp)

/-- Settles O11: each instruction's execution is a sequence of the writes its rule names. -/
theorem stepWritesOnlyWhatTheRuleNames : Obligations.StepWritesOnlyWhatTheRuleNames :=
  ⟨fun _ _ _ h => onlyWrites_of_exec h, fun _ _ _ hdecode h => onlyWrites_of_step hdecode h⟩

/-! Registers: what reads as before under each shape of a register write. -/

theorem getV_of_setV_logicReset {s t : State} {x r : Reg} {result : Byte}
    (h : advanced (s.setV x result).logicReset = .next t)
    (hr : (r == x || (r == VF && s.cfg.quirks.logicOpsResetVf)) = false) : t.getV r = s.getV r := by
  cases h
  simp only [Bool.or_eq_false_iff, beq_eq_false_iff_ne, Bool.and_eq_false_imp, beq_iff_eq] at hr
  obtain ⟨hx, hreset⟩ := hr
  rw [State.getV_setOutcome, State.getV_logicReset, if_neg (fun hq => by simp [hreset hq.2] at hq), State.getV_setV, if_neg hx]

theorem getV_of_setV_setFlag {s t : State} {x r : Reg} {result : Byte} {flag : Bool}
    (h : advanced ((s.setV x result).setFlag flag) = .next t) (hr : (r == x || r == VF) = false) :
    t.getV r = s.getV r := by
  cases h
  simp only [Bool.or_eq_false_iff, beq_eq_false_iff_ne] at hr
  rw [State.getV_setOutcome, State.getV_setFlag, if_neg hr.2, State.getV_setV, if_neg hr.1]

theorem getV_of_setV {s t : State} {x r : Reg} {b : Byte} (h : advanced (s.setV x b) = .next t)
    (hr : (r == x) = false) : t.getV r = s.getV r := by
  cases h
  rw [State.getV_setOutcome, State.getV_setV, if_neg (beq_eq_false_iff_ne.1 hr)]

/-- Settles O12: a register that is neither the destination nor a flag that is written reads as before; where no register is
written at all, that is the frame. -/
theorem registersChangeOnlyAsNamed : Obligations.RegistersChangeOnlyAsNamed := by
  intro i s t r h hr
  cases i with
  | ldImm | addImm | ldVxDt => exact getV_of_setV h hr
  | ldReg | orReg | andReg | xorReg => exact getV_of_setV_logicReset h hr
  | addReg | subReg | shr | subn | shl => exact getV_of_setV_setFlag h hr
  | rnd x nn =>
    cases h
    exact (s.getV_setV x _ r).trans (if_neg (beq_eq_false_iff_ne.1 hr))
  | drw x y n =>
    by_cases hgate : s.drawGated = true
    · cases (if_pos hgate).symm.trans h
      rfl
    · cases (if_neg hgate).symm.trans h
      exact (State.getV_setFlag _ _ r).trans (if_neg (beq_eq_false_iff_ne.1 hr))
  | ldVxK x =>
    cases hkey : s.leastKey with
    | some k => exact getV_of_setV ((exec_ldVxK_of_leastKey x hkey).symm.trans h) hr
    | none =>
      cases (exec_ldVxK_of_none x (s.leastKey_eq_none.1 hkey)).symm.trans h
      rfl
  | addI x =>
    by_cases hwrap : s.cfg.memSize ≤ s.i.toNat + (s.getV x).toNat
    · cases (if_pos hwrap).symm.trans h
      have hvf : r ≠ VF := by simpa [writesReg, hwrap] using hr
      exact (State.getV_setFlag _ _ r).trans (if_neg hvf)
    · cases (if_neg hwrap).symm.trans h
      rfl
  | ldVxMem x =>
    cases h
    have hgt : ¬r ≤ x := of_decide_eq_false hr
    rw [State.getV_setOutcome, State.getV_setI, getV_setRegs_loadRegs, if_neg hgt]
  | _ => exact onlyWrites_of_exec h .regs (by simp [writesOf]) r

/-! The writers of each element (10_state.md). -/

/-- A failing step writes `pc`, the log and the outcome; so any other change is by the instruction that runs. -/
theorem exists_writer_of_not_same {e : Element} {s t : State} (h : step s = .next t) (hne : ¬Same e s t)
    (he : e ∉ [.pc, .log, .outcome]) : ∃ i, decode s.fetch = .ok i ∧ e ∈ writesOf i := by
  cases hdecode : decode s.fetch with
  | error _ =>
    cases (step_of_decode_error hdecode).symm.trans h
    have hframe := onlyWrites_append (onlyWrites_setPc s (s.pc + 2#16))
      (onlyWrites_append (onlyWrites_report _ (.decodeFailure s.pc s.fetch)) (onlyWrites_setOutcome _ .decodeFailed))
    exact absurd (hframe e he) hne
  | ok i =>
    refine ⟨i, rfl, ?_⟩
    by_contra hi
    exact hne (onlyWrites_of_step hdecode h e (by simp_all))

theorem eq_of_dt_mem_writesOf {i : Instr} (h : .dt ∈ writesOf i) : ∃ x, i = .ldDtVx x := by
  cases i
  case ldDtVx x => exact ⟨x, rfl⟩
  all_goals simp [writesOf] at h

theorem eq_of_st_mem_writesOf {i : Instr} (h : .st ∈ writesOf i) : ∃ x, i = .ldStVx x := by
  cases i
  case ldStVx x => exact ⟨x, rfl⟩
  all_goals simp [writesOf] at h

theorem eq_of_display_mem_writesOf {i : Instr} (h : .fb ∈ writesOf i ∨ .dirty ∈ writesOf i) :
    i = .cls ∨ ∃ x y n, i = .drw x y n := by
  cases i
  case cls => exact .inl rfl
  case drw x y n => exact .inr ⟨x, y, n, rfl⟩
  all_goals simp [writesOf] at h

theorem eq_of_drewThisTick_mem_writesOf {i : Instr} (h : .drewThisTick ∈ writesOf i) : ∃ x y n, i = .drw x y n := by
  cases i
  case drw x y n => exact ⟨x, y, n, rfl⟩
  all_goals simp [writesOf] at h

theorem eq_of_stack_mem_writesOf {i : Instr} (h : .stack ∈ writesOf i) : i = .ret ∨ ∃ nnn, i = .call nnn := by
  cases i
  case ret => exact .inl rfl
  case call nnn => exact .inr ⟨nnn, rfl⟩
  all_goals simp [writesOf] at h

theorem eq_of_index_mem_writesOf {i : Instr} (h : .index ∈ writesOf i) :
    (∃ nnn, i = .ldI nnn) ∨ (∃ x, i = .addI x) ∨ (∃ x, i = .ldF x) ∨ ∃ x, i = .ldMemVx x ∨ i = .ldVxMem x := by
  cases i
  case ldI nnn => exact .inl ⟨nnn, rfl⟩
  case addI x => exact .inr (.inl ⟨x, rfl⟩)
  case ldF x => exact .inr (.inr (.inl ⟨x, rfl⟩))
  case ldMemVx x => exact .inr (.inr (.inr ⟨x, .inl rfl⟩))
  case ldVxMem x => exact .inr (.inr (.inr ⟨x, .inr rfl⟩))
  all_goals simp [writesOf] at h

theorem eq_of_mem_mem_writesOf {i : Instr} (h : .mem ∈ writesOf i) : (∃ x, i = .ldB x) ∨ ∃ x, i = .ldMemVx x := by
  cases i
  case ldB x => exact .inl ⟨x, rfl⟩
  case ldMemVx x => exact .inr ⟨x, rfl⟩
  all_goals simp [writesOf] at h

theorem cfg_notMem_writesOf (i : Instr) : .cfg ∉ writesOf i := by
  cases i
  all_goals simp [writesOf]

theorem keys_notMem_writesOf (i : Instr) : .keys ∉ writesOf i := by
  cases i
  all_goals simp [writesOf]

/-- A block store or load advances `I` under the quirk alone. -/
theorem storeLoadMemUseI_of_i_ne {i : Instr} {s t : State} {x : Reg} (hi : i = .ldMemVx x ∨ i = .ldVxMem x)
    (h : exec i s = .next t) (hne : t.i ≠ s.i) : s.cfg.quirks.storeLoadMemUseI = true := by
  have ht : t.i = s.blockAdvance x := by
    rcases hi with rfl | rfl
    all_goals
      cases h
      rfl
  by_contra hquirk
  exact hne (ht.trans (if_neg hquirk))

theorem readMem_of_exec_ldB {s t : State} {x : Reg} {a : Nat} (h : exec (.ldB x) s = .next t)
    (ha : ∀ k, k < 3 → s.dataAddress a ≠ s.dataAddress (s.i.toNat + k)) : t.readMem a = s.readMem a := by
  cases h
  exact s.readMem_writeBytes_of_ne s.i.toNat (bcdDigits (s.getV x)) a ha

theorem readMem_of_exec_ldMemVx {s t : State} {x : Reg} {a : Nat} (h : exec (.ldMemVx x) s = .next t)
    (ha : ∀ k, k ≤ x.toNat → s.dataAddress a ≠ s.dataAddress (s.i.toNat + k)) : t.readMem a = s.readMem a := by
  cases h
  refine s.readMem_writeBytes_of_ne s.i.toNat (s.regsUpTo x) a fun k hk => ha k ?_
  rw [State.regsUpTo_length] at hk
  omega

theorem cfg_of_step {s t : State} (h : step s = .next t) : t.cfg = s.cfg := by
  by_contra hne
  obtain ⟨i, -, hi⟩ := exists_writer_of_not_same (e := .cfg) h hne (by decide)
  exact cfg_notMem_writesOf i hi

/-- Settles O13: the writer of an element that changed is the instruction that ran, and few instructions' rules name the
element. -/
theorem eachElementHasItsOwnWriters : Obligations.EachElementHasItsOwnWriters := by
  intro s t h
  have hwriter {e : Element} (he : e ∉ [.pc, .log, .outcome]) (hne : ¬Same e s t) :=
    exists_writer_of_not_same h hne he
  refine ⟨cfg_of_step h, fun k => ?_, fun hne => ?_, fun hne => ?_, fun hne => ?_, fun hne => ?_, fun hne => ?_,
    fun hne => ?_, fun a hne => ?_⟩
  · by_contra hne
    obtain ⟨i, -, hi⟩ := hwriter (e := .keys) (by decide) fun hsame => hne (hsame k)
    exact keys_notMem_writesOf i hi
  · obtain ⟨i, hdecode, hi⟩ := hwriter (e := .dt) (by decide) hne
    obtain ⟨x, rfl⟩ := eq_of_dt_mem_writesOf hi
    exact ⟨x, hdecode⟩
  · obtain ⟨i, hdecode, hi⟩ := hwriter (e := .st) (by decide) hne
    obtain ⟨x, rfl⟩ := eq_of_st_mem_writesOf hi
    exact ⟨x, hdecode⟩
  · obtain ⟨i, hdecode, hi⟩ : ∃ i, decode s.fetch = .ok i ∧ (.fb ∈ writesOf i ∨ .dirty ∈ writesOf i) := by
      rcases hne with hne | hne
      · obtain ⟨i, hdecode, hi⟩ := hwriter (e := .fb) (by decide) hne
        exact ⟨i, hdecode, .inl hi⟩
      · obtain ⟨i, hdecode, hi⟩ := hwriter (e := .dirty) (by decide) hne
        exact ⟨i, hdecode, .inr hi⟩
    obtain rfl | ⟨x, y, n, rfl⟩ := eq_of_display_mem_writesOf hi
    · exact .inl hdecode
    · exact .inr ⟨x, y, n, hdecode⟩
  · obtain ⟨i, hdecode, hi⟩ := hwriter (e := .drewThisTick) (by decide) hne
    obtain ⟨x, y, n, rfl⟩ := eq_of_drewThisTick_mem_writesOf hi
    exact ⟨x, y, n, hdecode⟩
  · obtain ⟨i, hdecode, hi⟩ := hwriter (e := .stack) (by decide) hne
    obtain rfl | ⟨nnn, rfl⟩ := eq_of_stack_mem_writesOf hi
    · exact .inl hdecode
    · exact .inr ⟨nnn, hdecode⟩
  · obtain ⟨i, hdecode, hi⟩ := hwriter (e := .index) (by decide) hne
    obtain ⟨nnn, rfl⟩ | ⟨x, rfl⟩ | ⟨x, rfl⟩ | ⟨x, hx⟩ := eq_of_index_mem_writesOf hi
    · exact .inl ⟨nnn, hdecode⟩
    · exact .inr (.inl ⟨x, hdecode⟩)
    · exact .inr (.inr (.inl ⟨x, hdecode⟩))
    · have hexec := (step_of_decode_ok hdecode).symm.trans h
      have hquirk := storeLoadMemUseI_of_i_ne hx hexec hne
      refine .inr (.inr (.inr ⟨hquirk, x, ?_⟩))
      exact hx.imp (fun hi => by rw [hdecode, hi]) (fun hi => by rw [hdecode, hi])
  · obtain ⟨i, hdecode, hi⟩ := hwriter (e := .mem) (by decide) fun hsame => hne (hsame a)
    obtain ⟨x, rfl⟩ | ⟨x, rfl⟩ := eq_of_mem_mem_writesOf hi
    · have hexec := (step_of_decode_ok hdecode).symm.trans h
      refine .inl ?_
      by_contra hfar
      exact hne (readMem_of_exec_ldB (s := s.advancePc) hexec fun k hk ha => hfar ⟨x, k, hdecode, hk, ha⟩)
    · have hexec := (step_of_decode_ok hdecode).symm.trans h
      refine .inr ?_
      by_contra hfar
      exact hne (readMem_of_exec_ldMemVx (s := s.advancePc) hexec fun k hk ha => hfar ⟨x, k, hdecode, hk, ha⟩)

/-! The log (60_exceptions.md R87): each operation that branches or recurs gives the same with any log before it. -/

theorem skipIf_withLog {taken : Bool} {s t : State} (h : skipIf taken s = .next t) (l : List LogEvent) :
    skipIf taken { s with log := l } = .next { t with log := l } := by
  cases taken
  all_goals
    cases h
    rfl

theorem logicReset_withLog (s : State) (l : List LogEvent) :
    { s with log := l }.logicReset = { s.logicReset with log := l } := by
  unfold State.logicReset
  cases s.cfg.quirks.logicOpsResetVf <;> rfl

theorem writeBytes_withLog (s : State) (a : Nat) (bytes : List Byte) (l : List LogEvent) :
    { s with log := l }.writeBytes a bytes = { s.writeBytes a bytes with log := l } := by
  induction bytes generalizing s a with
  | nil => rfl
  | cons b rest ih => exact ih (s.writeMem a b) (a + 1)

theorem loadRegs_withLog (s : State) (base count : Nat) (v : Vector Byte 16) (l : List LogEvent) :
    { s with log := l }.loadRegs base count v = s.loadRegs base count v := by
  induction count with
  | zero => rfl
  | succ count ih => rw [State.loadRegs, ih]; rfl

theorem drawRows_withLog (s : State) (x0 y0 count : Nat) (c : Canvas) (l : List LogEvent) :
    drawRows { s with log := l } x0 y0 count c = drawRows s x0 y0 count c := by
  induction count with
  | zero => rfl
  | succ count ih => rw [drawRows, ih]; rfl

/-- An instruction whose rule does not name the log neither reads nor writes it. -/
theorem exec_withLog {i : Instr} {s t : State} (hlog : .log ∉ writesOf i) (h : exec i s = .next t) (l : List LogEvent) :
    exec i { s with log := l } = .next { t with log := l } := by
  cases i with
  | ret | call => simp [writesOf] at hlog
  | seImm | sneImm | seReg | sneReg | skp | sknp => exact skipIf_withLog h l
  | ldReg x | orReg x | andReg x | xorReg x =>
    cases h
    exact congrArg advanced (logicReset_withLog (s.setV x _) l)
  | addI x =>
    by_cases hwrap : s.cfg.memSize ≤ s.i.toNat + (s.getV x).toNat
    · cases (if_pos hwrap).symm.trans h
      exact if_pos hwrap
    · cases (if_neg hwrap).symm.trans h
      exact if_neg hwrap
  | ldVxK x =>
    cases hkey : s.leastKey with
    | some k =>
      cases (exec_ldVxK_of_leastKey x hkey).symm.trans h
      exact exec_ldVxK_of_leastKey (s := { s with log := l }) x hkey
    | none =>
      have hup := s.leastKey_eq_none.1 hkey
      cases (exec_ldVxK_of_none x hup).symm.trans h
      exact exec_ldVxK_of_none (s := { s with log := l }) x hup
  | drw x y n =>
    by_cases hgate : s.drawGated = true
    · cases (if_pos hgate).symm.trans h
      exact if_pos hgate
    · cases (if_neg hgate).symm.trans h
      refine (if_neg hgate).trans ?_
      simp only [drawRows_withLog]
      rfl
  | ldB x =>
    cases h
    simp only [exec, execLdB, writeBytes_withLog]
    rfl
  | ldMemVx x =>
    cases h
    simp only [exec, execLdMemVx, writeBytes_withLog]
    rfl
  | ldVxMem x =>
    cases h
    simp only [exec, execLdVxMem, loadRegs_withLog]
    rfl
  | _ =>
    cases h
    rfl

/-- A return puts at most the underflow in front of the log, whatever the log holds. -/
theorem exec_ret_withLog (s : State) : ∃ (t : State) (new : List LogEvent), new.length ≤ 1 ∧
    ∀ l, exec .ret { s with log := l } = .next { t with log := new ++ l } := by
  by_cases hnil : s.stack = []
  · exact ⟨s.setOutcome .advanced, [.stackUnderflow s.ownAddress], le_rfl,
      fun l => exec_ret_of_nil (s := { s with log := l }) hnil⟩
  · obtain ⟨top, rest, hcons⟩ := List.exists_cons_of_ne_nil hnil
    exact ⟨((s.setStack rest).setPc top).setOutcome .advanced, [], zero_le_one,
      fun l => exec_ret_of_cons (s := { s with log := l }) hcons⟩

/-- A call puts at most the overflow in front of the log, whatever the log holds. -/
theorem exec_call_withLog (nnn : Addr12) (s : State) : ∃ (t : State) (new : List LogEvent), new.length ≤ 1 ∧
    ∀ l, exec (.call nnn) { s with log := l } = .next { t with log := new ++ l } := by
  cases hroom : s.stackHasRoom with
  | false =>
    exact ⟨s.setOutcome .advanced, [.stackOverflow s.ownAddress], le_rfl,
      fun l => exec_call_of_full (s := { s with log := l }) nnn hroom⟩
  | true =>
    exact ⟨((s.setStack (s.pc :: s.stack)).setPc (nnn.setWidth 16)).setOutcome .advanced, [], zero_le_one,
      fun l => exec_call_of_room (s := { s with log := l }) nnn hroom⟩

theorem exists_next_of_exec (i : Instr) (s : State) : ∃ t, exec i s = .next t := by
  obtain ⟨u, h⟩ | ⟨h, -⟩ := exec_advanced_or_repeated i s
  · exact ⟨_, h⟩
  · exact ⟨_, h⟩

theorem exists_next_of_step (s : State) : ∃ t, step s = .next t := by
  cases hdecode : decode s.fetch with
  | error e => exact ⟨_, step_of_decode_error hdecode⟩
  | ok i =>
    rw [step_of_decode_ok hdecode]
    exact exists_next_of_exec i s.advancePc

theorem step_withLog (s : State) : ∃ (t : State) (new : List LogEvent), new.length ≤ 1 ∧
    ∀ l, step { s with log := l } = .next { t with log := new ++ l } := by
  cases hdecode : decode s.fetch with
  | error e =>
    exact ⟨s.advancePc.setOutcome .decodeFailed, [.decodeFailure s.pc s.fetch], le_rfl,
      fun l => step_of_decode_error (s := { s with log := l }) hdecode⟩
  | ok i =>
    have hstep (l : List LogEvent) : step { s with log := l } = exec i { s.advancePc with log := l } :=
      step_of_decode_ok (s := { s with log := l }) hdecode
    simp only [hstep]
    by_cases hlog : .log ∈ writesOf i
    · cases i
      case ret => exact exec_ret_withLog s.advancePc
      case call nnn => exact exec_call_withLog nnn s.advancePc
      all_goals simp [writesOf] at hlog
    · obtain ⟨t, hexec⟩ := exists_next_of_exec i s.advancePc
      exact ⟨t, [], zero_le_one, exec_withLog hlog hexec⟩

/-- Settles O10: the same event goes in front of whatever log stands, the state's own log among them. -/
theorem stepLogsAtMostOneEventAndReadsNone : Obligations.StepLogsAtMostOneEventAndReadsNone := by
  intro s earlier
  obtain ⟨t, new, hnew, hstep⟩ := step_withLog s
  exact ⟨_, new, hstep s.log, rfl, hnew, hstep earlier⟩

end Sys2Proof
end

section
/-! The invariant (10_state.md R12, R14; 20_memory.md R25; 70_reset_and_hazards.md R98): it holds after reset and construction,
and every step and every host operation keeps it. -/

namespace Sys2Proof

open Sys2Proof.Machine

/-! Execution. Most instructions write no element the invariant speaks of. -/

theorem inv_of_advanced {u t : State} (hu : u.Inv) (h : advanced u = .next t) : t.Inv := by
  cases h
  exact hu

theorem inv_of_repeated {s t : State} (hs : s.Inv) (h : repeated s = .next t) : t.Inv := by
  cases h
  exact hs

theorem inv_of_skipIf {taken : Bool} {s t : State} (hs : s.Inv) (h : skipIf taken s = .next t) : t.Inv := by
  cases taken with
  | true => exact inv_of_advanced (u := s.advancePc) hs h
  | false => exact inv_of_advanced hs h

theorem inv_logicReset {s : State} (hs : s.Inv) : s.logicReset.Inv := by
  rw [State.logicReset_eq]
  exact hs

theorem stackBounded_iff (s : State) :
    s.stackBounded = true ↔ ∀ depth, s.cfg.stackDepth = some depth → s.stack.length ≤ depth := by
  unfold State.stackBounded
  cases s.cfg.stackDepth <;> simp

theorem stackHasRoom_iff (s : State) :
    s.stackHasRoom = true ↔ ∀ depth, s.cfg.stackDepth = some depth → s.stack.length < depth := by
  unfold State.stackHasRoom
  cases s.cfg.stackDepth <;> simp

/-- A push into a stack with room stays within the depth (10_state.md R15). -/
theorem inv_push {s : State} (hs : s.Inv) (hroom : s.stackHasRoom = true) (a : Word) : (s.setStack (a :: s.stack)).Inv := by
  obtain ⟨hcfg, hmem, hfb, -⟩ := hs
  refine ⟨hcfg, hmem, hfb, (stackBounded_iff _).2 fun depth hdepth => ?_⟩
  exact (stackHasRoom_iff s).1 hroom depth hdepth

/-- A pop leaves a shorter stack. -/
theorem inv_pop {s : State} {top : Word} {rest : List Word} (hs : s.Inv) (hstack : s.stack = top :: rest) :
    (s.setStack rest).Inv := by
  obtain ⟨hcfg, hmem, hfb, hbound⟩ := hs
  refine ⟨hcfg, hmem, hfb, (stackBounded_iff _).2 fun depth hdepth => ?_⟩
  have hle := (stackBounded_iff s).1 hbound depth hdepth
  rw [hstack, List.length_cons] at hle
  exact Nat.le_of_succ_le hle

theorem inv_writeBytes {s : State} (hs : s.Inv) (a : Nat) (bytes : List Byte) : (s.writeBytes a bytes).Inv := by
  obtain ⟨hcfg, hmem, hfb, hbound⟩ := hs
  have hpos : 0 < s.cfg.memSize := by
    have := memory_bounds_of_validConfig hcfg
    omega
  have hwf := s.writeBytes_wf a bytes hpos hmem
  rw [State.writeBytes_eq]
  exact ⟨hcfg, hwf, hfb, hbound⟩

theorem length_fb_of_inv {s : State} (hs : s.Inv) : s.fb.length = s.cfg.width * s.cfg.height := by
  obtain ⟨-, -, hfb, -⟩ := hs
  exact hfb

/-- A new framebuffer of the screen's size. -/
theorem inv_of_fb {s : State} (hs : s.Inv) {fb : List Bool} (hlen : fb.length = s.cfg.width * s.cfg.height) (drew : Bool) :
    State.Inv { s with fb := fb, dirty := true, drewThisTick := drew } := by
  obtain ⟨hcfg, hmem, -, hbound⟩ := hs
  exact ⟨hcfg, hmem, hlen, hbound⟩

theorem inv_of_exec {i : Instr} {s t : State} (hs : s.Inv) (h : exec i s = .next t) : t.Inv := by
  cases i with
  | cls => exact inv_of_advanced (inv_of_fb hs List.length_replicate s.drewThisTick) h
  | ret =>
    cases hstack : s.stack with
    | nil => exact inv_of_advanced (u := s.report _) hs ((exec_ret_of_nil hstack).symm.trans h)
    | cons top rest =>
      have hpop := inv_pop hs hstack
      cases (exec_ret_of_cons hstack).symm.trans h
      exact hpop
  | call nnn =>
    cases hroom : s.stackHasRoom with
    | false => exact inv_of_advanced (u := s.report _) hs ((exec_call_of_full nnn hroom).symm.trans h)
    | true =>
      cases (exec_call_of_room nnn hroom).symm.trans h
      exact inv_push hs hroom s.pc
  | seImm | sneImm | seReg | sneReg | skp | sknp => exact inv_of_skipIf hs h
  | ldReg x | orReg x | andReg x | xorReg x => exact inv_of_advanced (inv_logicReset (s := s.setV x _) hs) h
  | addI x =>
    by_cases hwrap : s.cfg.memSize ≤ s.i.toNat + (s.getV x).toNat
    · cases (if_pos hwrap).symm.trans h
      exact hs
    · cases (if_neg hwrap).symm.trans h
      exact hs
  | ldVxK x =>
    cases hkey : s.leastKey with
    | some k => exact inv_of_advanced (u := s.setV x _) hs ((exec_ldVxK_of_leastKey x hkey).symm.trans h)
    | none => exact inv_of_repeated hs ((exec_ldVxK_of_none x (s.leastKey_eq_none.1 hkey)).symm.trans h)
  | drw x y n =>
    by_cases hgate : s.drawGated = true
    · exact inv_of_repeated hs ((if_pos hgate).symm.trans h)
    · cases (if_neg hgate).symm.trans h
      exact inv_of_fb hs ((drawRows_length s _ _ _ _).trans (length_fb_of_inv hs)) true
  | ldB x => exact inv_of_advanced (inv_writeBytes hs s.i.toNat _) h
  | ldMemVx x =>
    cases h
    exact inv_writeBytes hs s.i.toNat _
  | _ =>
    cases h
    exact hs

theorem inv_of_step {s t : State} (hs : s.Inv) (h : step s = .next t) : t.Inv := by
  cases hdecode : decode s.fetch with
  | error e =>
    cases (step_of_decode_error hdecode).symm.trans h
    exact hs
  | ok i => exact inv_of_exec (s := s.advancePc) hs ((step_of_decode_ok hdecode).symm.trans h)

/-- Settles O20: neither the fetch advance nor a failing fetch touches what the invariant speaks of, and the execution of each
instruction keeps it. -/
theorem stepKeepsTheInvariant : Obligations.StepKeepsTheInvariant :=
  fun _ _ hs h => inv_of_step hs h

/-! Reset and construction. -/

/-- Settles O18: the default configuration is valid, and memory, screen and stack are blank. -/
theorem resetHasTheInvariant : Obligations.ResetHasTheInvariant :=
  ⟨by decide, Memory.nil_wf _, List.length_replicate, by decide⟩

/-- Construction gives a core exactly where the configuration is valid for the ROM. -/
theorem construct_eq_some_iff {cfg : Config} {rom : List Byte} {s : State} :
    construct cfg rom = some s ↔ validConfig cfg rom.length = true ∧ (State.blank cfg).writeBytes cfg.romStart rom = s := by
  simp [construct]

/-- The constraints of 70_reset_and_hazards.md R98. -/
theorem validConfig_iff (cfg : Config) (romLen : Nat) :
    validConfig cfg romLen = true ↔
      1 ≤ cfg.memSize ∧ cfg.memSize ≤ 65536 ∧ cfg.fontStart + 80 ≤ cfg.memSize ∧ cfg.romStart ≤ 0xFFFF ∧
      cfg.romStart + romLen ≤ cfg.memSize ∧
      (romLen = 0 ∨ cfg.fontStart + 80 ≤ cfg.romStart ∨ cfg.romStart + romLen ≤ cfg.fontStart) ∧
      1 ≤ cfg.width ∧ 1 ≤ cfg.height ∧ 1 ≤ cfg.cyclesPerTick ∧
      ∀ depth, cfg.stackDepth = some depth → 1 ≤ depth := by
  cases hdepth : cfg.stackDepth <;>
    simp [validConfig, hdepth, and_assoc, or_assoc]

/-- A configuration that is valid for a ROM is valid for an empty one. -/
theorem validConfig_zero {cfg : Config} {romLen : Nat} (h : validConfig cfg romLen = true) : validConfig cfg 0 = true := by
  rw [validConfig_iff] at h ⊢
  obtain ⟨hpos, hmax, hfont, hstart, hrom, -, hrest⟩ := h
  exact ⟨hpos, hmax, hfont, hstart, Nat.le_trans (Nat.le_add_right _ romLen) hrom, .inl rfl, hrest⟩

theorem inv_blank {cfg : Config} (h : validConfig cfg 0 = true) : (State.blank cfg).Inv := by
  refine ⟨h, Memory.nil_wf cfg, List.length_replicate, (stackBounded_iff _).2 fun depth _ => ?_⟩
  exact Nat.zero_le depth

theorem inv_of_construct {cfg : Config} {rom : List Byte} {s : State} (h : construct cfg rom = some s) : s.Inv := by
  obtain ⟨hvalid, rfl⟩ := construct_eq_some_iff.1 h
  exact inv_writeBytes (inv_blank (validConfig_zero hvalid)) cfg.romStart rom

/-- Settles O19: the blank state meets the invariant under a configuration that construction accepts, and the ROM is written by
memory stores. -/
theorem constructionEstablishesTheInvariant : Obligations.ConstructionEstablishesTheInvariant :=
  fun _ _ _ h => inv_of_construct h

/-! The host's operations (60_exceptions.md R88 to R94). -/

theorem inv_keyEvent {s : State} (hs : s.Inv) (e : InputEvent) : (keyEvent e s).Inv := by
  cases e
  all_goals exact hs

theorem inv_readOut {s : State} (hs : s.Inv) : (readOut s).2.Inv := by
  rw [readOut_snd]
  exact hs

/-- Settles O21: no host operation touches what the invariant speaks of. -/
theorem hostOperationsKeepTheInvariant : Obligations.HostOperationsKeepTheInvariant :=
  fun _ hs => ⟨inv_keyEvent hs, hs, inv_readOut hs, hs⟩

end Sys2Proof
end

section
/-! Construction (70_reset_and_hazards.md R97 to R99): when it succeeds, what the core it builds holds, and the state after
reset. -/

namespace Sys2Proof

open Sys2Proof.Machine

/-! Memory before and after the ROM is written. -/

/-- The blank state's memory holds the font and zeros. -/
theorem readMem_blank {cfg : Config} {a : Nat} (h : a < cfg.memSize) :
    (State.blank cfg).readMem a = Memory.unlisted cfg a :=
  readMem_of_lt (s := State.blank cfg) h

theorem unlisted_fontStart_add (cfg : Config) (k : Nat) :
    Memory.unlisted cfg (cfg.fontStart + k) = fontTable.getD k 0#8 := by
  rw [Memory.unlisted, if_pos (Nat.le_add_right _ k), Nat.add_sub_cancel_left]

/-- Outside the 80 bytes of the font an unlisted byte is zero. -/
theorem unlisted_of_not_font {cfg : Config} {a : Nat} (h : ¬(cfg.fontStart ≤ a ∧ a < cfg.fontStart + 80)) :
    Memory.unlisted cfg a = 0#8 := by
  rw [Memory.unlisted]
  split
  next hle =>
    have hlen : fontTable.length ≤ a - cfg.fontStart := by
      show 80 ≤ a - cfg.fontStart
      omega
    exact List.getD_eq_default _ _ hlen
  next => rfl

theorem readMem_rom_of_construct {cfg : Config} {rom : List Byte} {s : State} (h : construct cfg rom = some s) {k : Nat}
    (hk : k < rom.length) : s.readMem (cfg.romStart + k) = rom[k] := by
  obtain ⟨hvalid, rfl⟩ := construct_eq_some_iff.1 h
  obtain ⟨-, -, -, -, hrom, -⟩ := (validConfig_iff _ _).1 hvalid
  exact (State.blank cfg).readMem_writeBytes cfg.romStart rom (Nat.le_trans (Nat.le_add_left _ _) hrom) k hk

theorem readMem_of_construct_of_not_rom {cfg : Config} {rom : List Byte} {s : State} (h : construct cfg rom = some s)
    {a : Nat} (ha : a < cfg.memSize) (hout : ¬(cfg.romStart ≤ a ∧ a < cfg.romStart + rom.length)) :
    s.readMem a = Memory.unlisted cfg a := by
  obtain ⟨hvalid, rfl⟩ := construct_eq_some_iff.1 h
  obtain ⟨-, -, -, -, hrom, -⟩ := (validConfig_iff _ _).1 hvalid
  rw [State.readMem_writeBytes_of_ne, readMem_blank ha]
  intro k hk
  show a % cfg.memSize ≠ (cfg.romStart + k) % cfg.memSize
  rw [Nat.mod_eq_of_lt ha, Nat.mod_eq_of_lt (by omega)]
  omega

/-- The ROM and the font lie apart exactly where no address lies in both. -/
theorem romApart_iff (romLen romStart fontStart : Nat) :
    (romLen = 0 ∨ fontStart + 80 ≤ romStart ∨ romStart + romLen ≤ fontStart) ↔
      ∀ a, ¬((fontStart ≤ a ∧ a < fontStart + 80) ∧ (romStart ≤ a ∧ a < romStart + romLen)) := by
  constructor
  · intro hapart a
    omega
  · intro hdisjoint
    have := hdisjoint (max fontStart romStart)
    omega

theorem pc_of_construct {cfg : Config} {rom : List Byte} {s : State} (h : construct cfg rom = some s) :
    s.pc.toNat = cfg.romStart := by
  obtain ⟨hvalid, rfl⟩ := construct_eq_some_iff.1 h
  obtain ⟨-, -, -, hstart, -⟩ := (validConfig_iff _ _).1 hvalid
  rw [State.writeBytes_eq]
  exact Nat.mod_eq_of_lt (by omega)

theorem cfg_of_construct {cfg : Config} {rom : List Byte} {s : State} (h : construct cfg rom = some s) : s.cfg = cfg := by
  obtain ⟨-, rfl⟩ := construct_eq_some_iff.1 h
  exact State.writeBytes_cfg _ _ _

/-- Construction writes memory alone over the blank state. -/
theorem eq_blank_setMem_of_construct {cfg : Config} {rom : List Byte} {s : State} (h : construct cfg rom = some s) :
    s = (State.blank cfg).setMem s.mem := by
  obtain ⟨-, rfl⟩ := construct_eq_some_iff.1 h
  exact State.writeBytes_eq _ _ _

/-- Every register and key of the blank state is clear. -/
theorem getV_blank (cfg : Config) (r : Reg) : (State.blank cfg).getV r = 0#8 := by
  simp [State.blank, State.getV]

theorem getKey_blank (cfg : Config) (k : Nibble) : (State.blank cfg).getKey k = false := by
  simp [State.blank, State.getKey]

/-- Settles O16: the constraints are those of `validConfig`, the disjointness put address by address, and the core is the blank
state with the ROM in memory. -/
theorem constructionBuildsTheCore : Obligations.ConstructionBuildsTheCore := by
  refine fun cfg rom => ⟨?_, fun s h => ?_⟩
  · rw [← romApart_iff, ← validConfig_iff]
    simp [construct]
  · obtain ⟨hvalid, -⟩ := construct_eq_some_iff.1 h
    obtain ⟨-, -, hfont, -, -, hapart, -⟩ := (validConfig_iff _ _).1 hvalid
    have hs := eq_blank_setMem_of_construct h
    refine ⟨cfg_of_construct h, pc_of_construct h, by rw [hs]; rfl, by rw [hs]; rfl, by rw [hs]; rfl, fun r => ?_,
      fun k => ?_, by rw [hs]; rfl, by rw [hs]; rfl, by rw [hs]; rfl, by rw [hs]; rfl, fun k hk => ?_, fun k hk => ?_,
      fun a ha hrom hout => ?_⟩
    · rw [hs]; exact getV_blank cfg r
    · rw [hs]; exact getKey_blank cfg k
    · rw [readMem_rom_of_construct h hk, List.getD_eq_getElem _ _ hk]
    · rw [readMem_of_construct_of_not_rom h (by omega) (by omega), unlisted_fontStart_add]
    · rw [readMem_of_construct_of_not_rom h ha hrom, unlisted_of_not_font hout]

/-- Settles O17: `pc` starts at `ROM_START`, and a ROM of two bytes or more leaves room for a whole fetch there. -/
theorem romRunsFromItsFirstWord : Obligations.RomRunsFromItsFirstWord := by
  intro cfg byte0 byte1 rest s h
  obtain ⟨hvalid, -⟩ := construct_eq_some_iff.1 h
  obtain ⟨-, -, -, -, hrom, -⟩ := (validConfig_iff _ _).1 hvalid
  have hpc := pc_of_construct h
  have h0 := readMem_rom_of_construct h (k := 0) (by simp)
  have h1 := readMem_rom_of_construct h (k := 1) (by simp)
  have hroom : s.pc.toNat + 1 < s.cfg.memSize := by
    rw [hpc, cfg_of_construct h]
    simp only [List.length_cons] at hrom
    omega
  rw [fetch_eq_pair hroom, hpc]
  exact congrArg₂ (fun a b => [a, b]) h0 h1

/-! The state after reset. -/

theorem pixel_replicate_false (cfg : Config) (n x y : Nat) : pixel cfg (List.replicate n false) x y = false := by
  rw [pixel, List.getD_eq_getElem?_getD, List.getElem?_replicate]
  split <;> rfl

/-- Settles O14: reset is the construction of an empty ROM under the defaults. -/
theorem resetState : Obligations.ResetState := by
  refine ⟨rfl, rfl, rfl, rfl, getV_blank Config.defaults, getKey_blank Config.defaults,
    fun x y _ _ => pixel_replicate_false Config.defaults _ x y, rfl, rfl, rfl, rfl, rfl, rfl, rfl, rfl, rfl, rfl, rfl, rfl,
    rfl, rfl, rfl, rfl, fun a ha hout => ?_, rfl⟩
  have hfont : ¬(Config.defaults.fontStart ≤ a ∧ a < Config.defaults.fontStart + 80) := by
    show ¬(0x50 ≤ a ∧ a < 0x50 + 80)
    omega
  exact (readMem_blank (cfg := Config.defaults) ha).trans (unlisted_of_not_font hfont)

/-- Settles O15, byte by byte. -/
theorem resetMemoryHoldsTheFont : Obligations.ResetMemoryHoldsTheFont := by
  unfold Obligations.ResetMemoryHoldsTheFont
  decide

end Sys2Proof
end

section
/-! Single instructions (40_control_flow.md R39, R44; 41_alu.md R47, R55, R58; 42_index_memory.md R59, R60, R62 to R64;
44_keypad_timers.md R70 to R72), and what a later return, block load or fetch finds of what an earlier instruction stored. -/

namespace Sys2Proof

open Sys2Proof.Machine

/-! Call and return. -/

/-- Settles O25: the push succeeds exactly where the stack is below its depth. -/
theorem callPushesOrReports : Obligations.CallPushesOrReports := by
  refine fun nnn => ⟨decodeWord_formatA_call nnn, fun s hroom => ?_, fun s depth hdepth hfull => ?_⟩
  · have hexec := exec_call_of_room nnn ((stackHasRoom_iff s).2 hroom)
    refine ⟨_, hexec, rfl, BitVec.toNat_setWidth_of_le (by decide), rfl, ?_⟩
    exact onlyWrites_mono (onlyWrites_append (onlyWrites_setStack s _) (onlyWrites_setPc_setOutcome _ _ _)) (by simp)
  · refine exec_call_of_full nnn (Bool.eq_false_iff.2 fun hroom => ?_)
    exact Nat.not_lt.2 hfull ((stackHasRoom_iff s).1 hroom depth hdepth)

/-- Settles O26: the call leaves the advanced `pc` on top of the stack, and the return pops it. -/
theorem retAfterCallComesBack : Obligations.RetAfterCallComesBack := by
  intro nnn s hroom
  refine ⟨_, exec_call_of_room nnn ((stackHasRoom_iff s).2 hroom), fun u hstack => ?_⟩
  exact ⟨_, exec_ret_of_cons hstack, rfl, rfl, rfl⟩

/-! BNNN, 7XNN, 8XY6, CXNN and ANNN. -/

/-- Settles O28: a 12-bit address and a byte add up below 65536, so the 16-bit sum is exact. -/
theorem jpV0AddsItsBase : Obligations.JpV0AddsItsBase := by
  refine fun nnn => ⟨decodeWord_formatA_jpV0 nnn, fun x s => ?_⟩
  refine ⟨_, rfl, rfl, ?_, onlyWrites_setPc_setOutcome s _ _⟩
  have hnnn := nnn.isLt
  have hbase := (s.jumpBase x).isLt
  have hsum : (nnn.setWidth 16 + (s.jumpBase x).setWidth 16).toNat = nnn.toNat + (s.jumpBase x).toNat := by
    rw [BitVec.toNat_add, BitVec.toNat_setWidth_of_le (by decide), BitVec.toNat_setWidth_of_le (by decide)]
    omega
  exact hsum

/-- Settles O30: one register write of the wrapped sum. -/
theorem addImmWrapsWithoutFlag : Obligations.AddImmWrapsWithoutFlag := by
  refine fun x nn => ⟨decodeWord_formatXK_addImm x nn, fun s => ?_⟩
  have hget (r : Reg) := s.getV_setV x (s.getV x + nn) r
  refine ⟨_, rfl, rfl, ?_, fun r hr => (hget r).trans (if_neg hr), onlyWrites_setRegs_setOutcome s _ _⟩
  exact (congrArg BitVec.toNat ((hget x).trans (if_pos rfl))).trans (BitVec.toNat_add _ _)

/-- Bit 0 of a byte is its value modulo 2. -/
theorem ite_shiftedOutRight (b : Byte) : (if shiftedOutRight b then 1 else 0) = b.toNat % 2 := by
  rw [if_congr (shiftedOutRight_iff b) rfl rfl]
  split <;> omega

/-- Settles O35: the source is halved, whichever register it is, and then its old bit 0 becomes the flag. -/
theorem shrShiftsOutBit0 : Obligations.ShrShiftsOutBit0 := by
  refine fun x y => ⟨decodeWord_formatXYN_family8 x y 0x6#4, fun s => ?_⟩
  have hhalf : (s.shiftSource x y >>> 1).toNat = (s.shiftSource x y).toNat / 2 := BitVec.toNat_ushiftRight _ 1
  exact advanced_setV_setFlag s x hhalf (ite_shiftedOutRight (s.shiftSource x y))

/-- Settles O36: the draw is one register write under the mask and one step of the count, for any byte. -/
theorem rndMasksOneDraw : Obligations.RndMasksOneDraw := by
  refine fun x nn => ⟨decodeWord_formatXK_rnd x nn, fun s => ⟨?_, fun drawn => ?_⟩⟩
  · exact ⟨_, rfl, rfl, rfl, s.getV_setV x _, onlyWrites_append (onlyWrites_setRegs s _)
      (onlyWrites_append (onlyWrites_randDraws _ _) (onlyWrites_setOutcome _ _))⟩
  · refine ⟨_, rfl, fun bit hbit => ?_⟩
    have hget : (s.setV x (drawn &&& nn)).getV x = drawn &&& nn := (s.getV_setV x _ x).trans (if_pos rfl)
    refine (congrArg (BitVec.getLsbD · bit) hget).trans ?_
    rw [BitVec.getLsbD_and, hbit, Bool.and_false]

/-- Settles O37: one write of `I`, the 12 bits widened. -/
theorem ldISetsTheIndex : Obligations.LdISetsTheIndex := by
  refine fun nnn => ⟨decodeWord_formatA_ldI nnn, fun s => ?_⟩
  exact ⟨_, rfl, rfl, BitVec.toNat_setWidth_of_le (by decide),
    onlyWrites_append (onlyWrites_setI s _) (onlyWrites_setOutcome _ _)⟩

/-! FX1E. -/

/-- Settles O38: the sum is compared with `MEM_SIZE` as it is, and reduced or not it fits `I`. -/
theorem addIWrapsAndSignals : Obligations.AddIWrapsAndSignals := by
  refine fun x => ⟨decodeWord_formatXK_familyF x 0x1E#8, fun s hvalid => ?_⟩
  intro sum
  have hbounds := memory_bounds_of_validConfig hvalid
  by_cases hwrap : s.cfg.memSize ≤ sum
  · have hlt : s.dataAddress sum < s.cfg.memSize := s.dataAddress_lt _ (by omega)
    refine ⟨_, if_pos hwrap, rfl, ?_, fun r => ?_, onlyWrites_append (onlyWrites_append (onlyWrites_setI s _)
      (onlyWrites_setRegs _ _)) (onlyWrites_setOutcome _ _)⟩
    · rw [if_pos hwrap]
      exact Nat.mod_eq_of_lt (hlt.trans_le hbounds.2)
    · exact (State.getV_setFlag _ true r).trans (if_congr (by simp [hwrap]) rfl rfl)
  · refine ⟨_, if_neg hwrap, rfl, ?_, fun r => ?_, onlyWrites_mono (onlyWrites_append (onlyWrites_setI s _)
      (onlyWrites_setOutcome _ _)) (by simp)⟩
    · rw [if_neg hwrap]
      exact Nat.mod_eq_of_lt (by omega)
    · rw [if_neg fun h => hwrap h.2]
      rfl

/-! FX55, and what reads the stored bytes back. -/

/-- Reads depend on the configuration and the memory alone. -/
theorem readMem_congr {s t : State} (hcfg : s.cfg = t.cfg) (hmem : s.mem = t.mem) (a : Nat) : s.readMem a = t.readMem a := by
  simp only [State.readMem, State.dataAddress, hcfg, hmem]

/-- Memory has room for the registers apart, so each stands where it was stored. -/
theorem readMem_ldMemVx {s t : State} {x k : Reg} (hvalid : validConfig s.cfg 0 = true) (h : exec (.ldMemVx x) s = .next t)
    (hk : k ≤ x) : t.readMem (s.i.toNat + k.toNat) = s.getV k := by
  cases h
  have hbounds := memory_bounds_of_validConfig hvalid
  have hlen := s.regsUpTo_length x
  have hx := x.isLt
  have hlt : k.toNat < (s.regsUpTo x).length := by
    rw [hlen]
    exact Nat.lt_succ_of_le hk
  exact (s.readMem_writeBytes s.i.toNat (s.regsUpTo x) (by omega) k.toNat hlt).trans (s.regsUpTo_getElem x k hlt)

/-- Settles O41: the bytes stored are the registers in order, and the advance comes after them. -/
theorem blockStoreWritesTheRegisters : Obligations.BlockStoreWritesTheRegisters := by
  refine fun x => ⟨decodeWord_formatXK_familyF x 0x55#8, fun s hvalid => ?_⟩
  exact ⟨_, rfl, rfl, fun k hk => readMem_ldMemVx hvalid rfl hk, fun a ha => readMem_of_exec_ldMemVx rfl ha,
    toNat_blockAdvance hvalid x,
    onlyWrites_append (onlyWrites_append (onlyWrites_writeBytes s _ _) (onlyWrites_setI _ _)) (onlyWrites_setOutcome _ _)⟩

/-- A register that a block load names becomes the byte at its place. -/
theorem getV_of_exec_ldVxMem {s t : State} {x k : Reg} (h : exec (.ldVxMem x) s = .next t) (hk : k ≤ x) :
    t.getV k = s.readMem (s.i.toNat + k.toNat) := by
  cases h
  rw [State.getV_setOutcome, State.getV_setI, getV_setRegs_loadRegs, if_pos hk]

/-- Settles O43: the load reads at `I + k` the byte that the store put there. -/
theorem blockLoadAfterStoreRestores : Obligations.BlockLoadAfterStoreRestores := by
  refine fun x s hvalid => ⟨_, rfl, fun u hcfg hmem hi => ⟨_, rfl, fun k hk => ?_⟩⟩
  rw [getV_of_exec_ldVxMem rfl hk, readMem_congr hcfg hmem, hi]
  exact readMem_ldMemVx hvalid rfl hk

/-- Memory has room for the three digits apart, so each stands where it was stored. -/
theorem toNat_readMem_ldB {s t : State} {x : Reg} (hvalid : validConfig s.cfg 0 = true) (h : exec (.ldB x) s = .next t) :
    (t.readMem s.i.toNat).toNat = (s.getV x).toNat / 100 ∧
      (t.readMem (s.i.toNat + 1)).toNat = (s.getV x).toNat / 10 % 10 ∧
      (t.readMem (s.i.toNat + 2)).toNat = (s.getV x).toNat % 10 := by
  obtain ⟨-, hstore⟩ := ldBStoresTheDigits x
  obtain ⟨t', hexec, -, hhundreds, htens, hunits, -⟩ := hstore s hvalid
  cases hexec.symm.trans h
  exact ⟨hhundreds, htens, hunits⟩

/-- Settles O44: the load takes the three digits from where the store put them. -/
theorem bcdDigitsLoadBack : Obligations.BcdDigitsLoadBack := by
  intro x s hvalid
  obtain ⟨t, hstore⟩ := exists_next_of_exec (.ldB x) s
  obtain ⟨u, hload⟩ := exists_next_of_exec (.ldVxMem 2#4) t
  obtain ⟨hhundreds, htens, hunits⟩ := toNat_readMem_ldB hvalid hstore
  have hi : t.i = s.i := onlyWrites_of_exec hstore .index (by simp [writesOf])
  have hget {k : Reg} (hk : k ≤ 2#4) : u.getV k = t.readMem (s.i.toNat + k.toNat) := by
    rw [← hi]
    exact getV_of_exec_ldVxMem hload hk
  have h0 : (u.getV 0#4).toNat = (s.getV x).toNat / 100 := by rw [hget (by decide)]; exact hhundreds
  have h1 : (u.getV 1#4).toNat = (s.getV x).toNat / 10 % 10 := by rw [hget (by decide)]; exact htens
  have h2 : (u.getV 2#4).toNat = (s.getV x).toNat % 10 := by rw [hget (by decide)]; exact hunits
  have hlt := (s.getV x).isLt
  exact ⟨t, u, hstore, hload, by omega, by omega, by omega, by omega⟩

/-- A fetch of two bytes at a reduced address reads what data reads give there, with no fence (20_memory.md, ordering). -/
theorem fetch_of_pc_eq_mod {u : State} {a : Nat} (hpc : u.pc.toNat = a % u.cfg.memSize)
    (hroom : u.pc.toNat + 1 < u.cfg.memSize) : u.fetch = [u.readMem a, u.readMem (a + 1)] := by
  have hnext : u.readMem (a % u.cfg.memSize + 1) = u.readMem (a + 1) := by
    rw [← readMem_mod_memSize, Nat.mod_add_mod, readMem_mod_memSize]
  rw [fetch_eq_pair hroom, hpc, readMem_mod_memSize, hnext]

/-- Settles O45: the fetch reads the two bytes where the store put them. -/
theorem storedWordIsFetched : Obligations.StoredWordIsFetched := by
  intro x s hvalid
  obtain ⟨t, hregs⟩ := exists_next_of_exec (.ldMemVx x) s
  obtain ⟨d, hdigits⟩ := exists_next_of_exec (.ldB x) s
  have htcfg : t.cfg = s.cfg := onlyWrites_of_exec hregs .cfg (by simp [writesOf])
  have hdcfg : d.cfg = s.cfg := onlyWrites_of_exec hdigits .cfg (by simp [writesOf])
  refine ⟨⟨t, hregs, fun u k hcfg hmem hk hpc hroom => ?_⟩, ⟨d, hdigits, fun u hcfg hmem hroom => ?_⟩⟩
  · rw [← htcfg, ← hcfg] at hpc hroom
    have hk1 : (k + 1#4).toNat = k.toNat + 1 := by bv_omega
    have hlow := readMem_ldMemVx hvalid hregs (BitVec.le_of_lt hk)
    have hhigh := readMem_ldMemVx (k := k + 1#4) hvalid hregs (by bv_omega)
    rw [hk1] at hhigh
    rw [fetch_of_pc_eq_mod hpc hroom, readMem_congr hcfg hmem, readMem_congr hcfg hmem, hlow]
    exact congrArg (fun b => [s.getV k, b]) hhigh
  · obtain ⟨hhundreds, htens, hunits⟩ := toNat_readMem_ldB hvalid hdigits
    rw [← hdcfg, ← hcfg] at hroom ⊢
    refine ⟨fun hpc => ?_, fun hpc => ?_⟩
    all_goals rw [fetch_of_pc_eq_mod hpc hroom, readMem_congr hcfg hmem, readMem_congr hcfg hmem, List.map_cons, List.map_cons,
      List.map_nil]
    · rw [hhundreds, htens]
    · rw [htens, hunits]

/-! EX9E and EXA1. -/

/-- Settles O51: the low nibble of `Vx` is the key named, and each skip tests its latch. -/
theorem keySkipsTestTheLatch : Obligations.KeySkipsTestTheLatch := by
  refine fun x => ⟨decodeWord_formatXK_familyE x 0x9E#8, decodeWord_formatXK_familyE x 0xA1#8, fun s k hk => ?_⟩
  have hkey : keyIndex (s.getV x) = k := by
    apply BitVec.eq_of_toNat_eq
    rw [hk, keyIndex, BitVec.extractLsb'_toNat, Nat.shiftRight_zero]
  refine ⟨?_, ?_⟩
  · rw [← hkey]
    exact skipIf_eq Iff.rfl s
  · rw [← hkey, ← ite_not]
    exact skipIf_eq (by simp) s

end Sys2Proof
end

section
/-! The display (43_display.md R65 to R69; 90_conflicts.md C5): clearing, drawing with the gate open, drawing twice, and the
waits that hold however many steps run. -/

namespace Sys2Proof

open Sys2Proof.Machine

/-- Settles O46: the new framebuffer is the blank one, and nothing else but `dirty` is written. -/
theorem clsClearsTheScreen : Obligations.ClsClearsTheScreen := by
  refine ⟨by decide, fun s => ⟨_, rfl, rfl, rfl, List.length_replicate, fun x y => ?_, ?_⟩⟩
  · exact pixel_replicate_false s.cfg _ x y
  · exact onlyWrites_append (onlyWrites_fb_dirty s _) (onlyWrites_setOutcome _ _)

/-! The draw by its gate (43_display.md R66). -/

theorem exec_drw_of_gated {s : State} (x y : Reg) (n : Nibble) (hgate : s.drawGated = true) :
    exec (.drw x y n) s = repeated s :=
  if_pos hgate

/-- Settles O47: a gated draw is a repeated step. -/
theorem gatedDrawIsRepeated : Obligations.GatedDrawIsRepeated := by
  intro x y n s hwait hdrew
  have hgate : s.drawGated = true := by rw [State.drawGated, hwait, hdrew, Bool.and_self]
  exact exec_drw_of_gated x y n hgate

/-- What a draw with the gate open works out before it writes: the sprite drawn over the screen, its corner wrapped
(43_display.md R67). -/
def drawnCanvas (x y : Reg) (n : Nibble) (s : State) : Canvas :=
  drawRows s ((s.getV x).toNat % s.cfg.width) ((s.getV y).toNat % s.cfg.height) n.toNat { fb := s.fb, hit := false }

theorem exec_drw_of_open {s : State} (x y : Reg) (n : Nibble) (hgate : s.drawGated = false) :
    exec (.drw x y n) s =
      advanced ({ s with fb := (drawnCanvas x y n s).fb, dirty := true, drewThisTick := true }.setFlag
        (drawnCanvas x y n s).hit) :=
  if_neg (Bool.eq_false_iff.1 hgate)

theorem drawGated_eq_false {s : State} (hopen : s.cfg.quirks.displayWait = false ∨ s.drewThisTick = false) :
    s.drawGated = false := by
  rwa [State.drawGated, Bool.and_eq_false_iff]

theorem hit_drawnCanvas_iff {s : State} (hs : s.Inv) (x y : Reg) (n : Nibble) :
    (drawnCanvas x y n s).hit = true ↔ ∃ px py, px < s.cfg.width ∧ py < s.cfg.height ∧ pixel s.cfg s.fb px py = true ∧
      spriteCovers s ((s.getV x).toNat % s.cfg.width) ((s.getV y).toNat % s.cfg.height) n.toNat px py = true := by
  refine (drawRows_hit s _ _ _ _ (length_fb_of_inv hs)).trans ?_
  simp only [Bool.false_eq_true, false_or, and_comm (b := pixel _ _ _ _ = true)]

/-- A flag reads as 1 exactly where it was set, and is 1 or 0. -/
theorem getV_setFlag_VF (s : State) (flag : Bool) :
    ((s.setFlag flag).getV VF = 1#8 ∨ (s.setFlag flag).getV VF = 0#8) ∧
      ((s.setFlag flag).getV VF = 1#8 ↔ flag = true) := by
  rw [State.getV_setFlag, if_pos rfl]
  cases flag <;> decide

/-- Settles O48: the canvas is what `drawRows` makes of the screen, pixel by pixel, and the flag is its collision. -/
theorem drawFlipsTheCoveredPixels : Obligations.DrawFlipsTheCoveredPixels := by
  refine fun x y n => ⟨decodeWord_formatXYN_drw x y n, fun s hs hopen => ?_⟩
  intro covers
  have hexec := exec_drw_of_open x y n (drawGated_eq_false hopen)
  obtain ⟨hbit, hset⟩ := getV_setFlag_VF { s with fb := (drawnCanvas x y n s).fb, dirty := true, drewThisTick := true }
    (drawnCanvas x y n s).hit
  have hhit := hit_drawnCanvas_iff hs x y n
  refine ⟨_, hexec, rfl, rfl, rfl, drawRows_length s _ _ _ _, fun px py hpx hpy => ?_, hbit, hset.trans hhit,
    fun r hr => (State.getV_setFlag _ _ r).trans (if_neg hr), ?_⟩
  · exact pixel_drawRows s _ _ _ _ (length_fb_of_inv hs) px py hpx hpy
  · exact onlyWrites_mono (onlyWrites_append (onlyWrites_append (onlyWrites_fb_dirty_drew s _) (onlyWrites_setRegs _ _))
      (onlyWrites_setOutcome _ _)) (by simp)

/-! Drawing twice (90_conflicts.md C5). -/

/-- Where a sprite lies depends on `I` and the memory. -/
theorem spriteCovers_congr {s t : State} (hi : t.i = s.i) (hmem : ∀ a, t.readMem a = s.readMem a) :
    spriteCovers t = spriteCovers s := by
  unfold spriteCovers
  simp only [hi, hmem]

/-- Settles O49: the second draw covers the same pixels as the first, so it flips the same ones back, and those it covers are on
exactly where they were off before. -/
theorem drawingTwiceRestoresTheScreen : Obligations.DrawingTwiceRestoresTheScreen := by
  intro x y n s hs hx hy hopen covers
  obtain ⟨-, hdraw⟩ := drawFlipsTheCoveredPixels x y n
  obtain ⟨t, hfirst, -, -, -, htlen, htpixel, htbit, hthit, htregs, htframe⟩ := hdraw s hs hopen
  have ht : t.Inv := inv_of_exec hs hfirst
  obtain ⟨u, hsecond, -, -, -, hulen, hupixel, -, huhit, -, huframe⟩ := hdraw (tickBoundary t) ht (.inr rfl)
  have htcfg : t.cfg = s.cfg := htframe .cfg (by simp)
  have hucfg : u.cfg = s.cfg := (huframe .cfg (by simp)).trans htcfg
  have hcovers : spriteCovers (tickBoundary t) = spriteCovers s :=
    spriteCovers_congr (htframe .index (by simp)) (htframe .mem (by simp))
  have hxreg : (tickBoundary t).getV x = s.getV x := htregs x hx
  have hyreg : (tickBoundary t).getV y = s.getV y := htregs y hy
  simp only [tickBoundary_cfg, tickBoundary_fb, hcovers, hxreg, hyreg, htcfg, hucfg] at htpixel hulen hupixel huhit
  have hslen := length_fb_of_inv hs
  refine ⟨t, u, hfirst, hsecond, ?_, fun hblank hinside => ⟨?_, ?_⟩⟩
  · refine fb_ext s.cfg (hulen.trans (htlen.trans hslen)) hslen fun px py hpx hpy => ?_
    rw [hupixel px py hpx hpy, htpixel px py hpx hpy, Bool.xor_assoc, Bool.xor_self, Bool.xor_false]
  · refine htbit.resolve_left fun hset => ?_
    obtain ⟨px, py, hpx, hpy, hon, hcover⟩ := hthit.1 hset
    simp [hblank px py hpx hpy hcover] at hon
  · obtain ⟨px, py, hpx, hpy, hcover⟩ := hinside
    refine huhit.2 ⟨px, py, hpx, hpy, ?_, hcover⟩
    rw [htpixel px py hpx hpy, hblank px py hpx hpy hcover, Bool.false_xor]
    exact hcover

/-! The waits. -/

theorem core_run_succ {s t : State} (h : step s = .next t) (n : Nat) : core.run (n + 1) s = core.run n t := by
  have hstep : core.step s = .next t := h
  simp only [Host.Core.run, hstep]

/-- A step that only repeats repeats however many times it is taken: the outcome it leaves is not read. -/
theorem core_run_of_step_repeated {s : State} (h : step s = .next { s with outcome := some .repeated }) (n : Nat) :
    core.run (n + 1) s = .next { s with outcome := some .repeated } := by
  rw [core_run_succ h]
  induction n with
  | zero => rfl
  | succ n ih => exact (core_run_succ ((step_withOutcome s _).trans h) n).trans ih

/-- Settles O50: the key wait and the gated draw only repeat. -/
theorem waitsHoldUntilTheHostActs : Obligations.WaitsHoldUntilTheHostActs := by
  refine fun s n => ⟨fun x hdecode hup => ?_, fun x y h hdecode hwait hdrew => ?_⟩
  · exact core_run_of_step_repeated (step_ldVxK_of_none hdecode hup) n
  · refine core_run_of_step_repeated ?_ n
    have hgate : s.advancePc.drawGated = true := by
      rw [State.drawGated, State.advancePc_cfg, State.advancePc_drewThisTick, hwait, hdrew, Bool.and_self]
    rw [step_of_decode_ok hdecode, exec_drw_of_gated x y h hgate, repeated_advancePc]

end Sys2Proof
end

section
/-! The host's operations and protocol (60_exceptions.md R88 to R94): tick boundaries, the drain, the batch, the tick and the
run. -/

namespace Sys2Proof

open Sys2Proof.Machine

theorem onlyWrites_trans {ws : List Element} {s t u : State} (hst : OnlyWrites ws s t) (htu : OnlyWrites ws t u) :
    OnlyWrites ws s u :=
  onlyWrites_mono (onlyWrites_append hst htu) (by simp)

/-! Tick boundaries (R88, R89). -/

theorem onlyWrites_tickBoundary (s : State) : OnlyWrites [.dt, .st, .drewThisTick] s (tickBoundary s) := by
  intro e he
  cases e
  case dt | st | drewThisTick => simp at he
  all_goals simp [Same, State.getV, State.getKey, State.readMem, State.dataAddress]

/-- Settles O54: each boundary counts each timer down once, and what one boundary leaves alone, any number of them does. -/
theorem tickBoundariesCountDown : Obligations.TickBoundariesCountDown := by
  refine fun n s => ⟨toNat_iterate_tickBoundary tickBoundary_dt n s, toNat_iterate_tickBoundary tickBoundary_st n s,
    fun hn => ?_, ?_⟩
  · obtain ⟨m, rfl⟩ := Nat.exists_eq_succ_of_ne_zero hn.ne'
    rw [Function.iterate_succ_apply', tickBoundary_drewThisTick]
  · induction n with
    | zero => exact onlyWrites_refl _ s
    | succ n ih =>
      rw [Function.iterate_succ_apply']
      exact onlyWrites_trans ih (onlyWrites_tickBoundary _)

/-! The drain (R90, R94). -/

theorem onlyWrites_keyEvent (e : InputEvent) (s : State) : OnlyWrites [.keys] s (keyEvent e s) := by
  have hsetKey (k : Nibble) (down : Bool) : OnlyWrites [.keys] s (s.setKey k down) := by
    intro e he
    cases e
    case keys => simp at he
    all_goals simp [Same]
  cases e with
  | keyDown k => exact hsetKey k true
  | keyUp k => exact hsetKey k false
  | quit => exact onlyWrites_refl _ s

theorem drain_cons_of_ne_quit {e : InputEvent} (he : e ≠ .quit) (rest : List InputEvent) (s : State) :
    drain (e :: rest) s = drain rest (keyEvent e s) := by
  cases e with
  | keyDown | keyUp => rfl
  | quit => exact absurd rfl he

/-- The level of key `k` after one event, from its level before. -/
theorem getKey_keyEvent {e : InputEvent} (he : e ≠ .quit) (s : State) (k : Nibble) :
    (keyEvent e s).getKey k = if e = .keyDown k then true else if e = .keyUp k then false else s.getKey k := by
  cases e with
  | keyDown j | keyUp j => simp [keyEvent, eq_comm]
  | quit => exact absurd rfl he

/-- Settles O56: without a `Quit` every event is applied, the first one first. -/
theorem drainAppliesEventsInOrder : Obligations.DrainAppliesEventsInOrder := by
  intro events
  induction events with
  | nil => exact fun s _ => ⟨s, rfl, onlyWrites_refl _ s, fun k => rfl⟩
  | cons e rest ih =>
    intro s hquit
    obtain ⟨he, hrest⟩ := List.ne_and_not_mem_of_not_mem_cons hquit
    obtain ⟨t, hdrain, hframe, hkeys⟩ := ih (keyEvent e s) hrest
    refine ⟨t, (drain_cons_of_ne_quit he.symm rest s).trans hdrain,
      onlyWrites_trans (onlyWrites_keyEvent e s) hframe, fun k => ?_⟩
    rw [hkeys k, getKey_keyEvent he.symm, List.foldl_cons]

theorem exists_running_of_quit_notMem {events : List InputEvent} (h : .quit ∉ events) (s : State) :
    ∃ t, drain events s = .running t := by
  obtain ⟨t, hdrain, -⟩ := drainAppliesEventsInOrder events s h
  exact ⟨t, hdrain⟩

/-- A `Quit` ends the drain, and only the latch has changed before it. -/
theorem exists_ended_of_quit_mem {events : List InputEvent} (h : .quit ∈ events) (s : State) :
    ∃ t, drain events s = .ended t ∧ OnlyWrites [.keys] s t := by
  induction events generalizing s with
  | nil => simp at h
  | cons e rest ih =>
    by_cases he : e = .quit
    · subst he
      exact ⟨s, rfl, onlyWrites_refl _ s⟩
    · obtain ⟨t, hdrain, hframe⟩ := ih ((List.mem_cons.1 h).resolve_left (Ne.symm he)) (keyEvent e s)
      exact ⟨t, (drain_cons_of_ne_quit he rest s).trans hdrain, onlyWrites_trans (onlyWrites_keyEvent e s) hframe⟩

/-! The batch. -/

theorem batch_succ_of_running (pending : List (List InputEvent)) {s s' s'' : State}
    (hdrain : drain (pending.headD []) s = .running s') (hstep : step s' = .next s'') (n : Nat) :
    batch (n + 1) pending s = batch n pending.tail s'' := by
  simp only [batch, hdrain, hstep]

theorem batch_succ_of_ended (pending : List (List InputEvent)) {s t : State} (hdrain : drain (pending.headD []) s = .ended t)
    (n : Nat) : batch (n + 1) pending s = .ended t := by
  simp only [batch, hdrain]

/-- Without a `Quit` before it, the next step of a batch runs. -/
theorem exists_batch_succ_eq {pending : List (List InputEvent)} (hquit : .quit ∉ pending.headD []) (s : State) :
    ∃ t, ∀ n, batch (n + 1) pending s = batch n pending.tail t := by
  obtain ⟨s', hdrain⟩ := exists_running_of_quit_notMem hquit s
  obtain ⟨t, hstep⟩ := exists_next_of_step s'
  exact ⟨t, batch_succ_of_running pending hdrain hstep⟩

/-- A batch ends early exactly where a `Quit` comes before one of its steps. -/
theorem batch_ended_iff (n : Nat) (pending : List (List InputEvent)) (s : State) :
    (∃ t, batch n pending s = .ended t) ↔ ∃ events ∈ pending.take n, .quit ∈ events := by
  induction n generalizing pending s with
  | zero => simp [batch]
  | succ n ih =>
    by_cases hquit : .quit ∈ pending.headD []
    · obtain ⟨t, hdrain, -⟩ := exists_ended_of_quit_mem hquit s
      refine iff_of_true ⟨t, batch_succ_of_ended pending hdrain n⟩ ?_
      cases pending with
      | nil => simp at hquit
      | cons events later => exact ⟨events, by simp, hquit⟩
    · obtain ⟨t, hbatch⟩ := exists_batch_succ_eq hquit s
      rw [hbatch n, ih]
      cases pending with
      | nil => simp
      | cons events later =>
        rw [List.headD_cons] at hquit
        simp [hquit]

theorem exists_running_of_batch {n : Nat} {pending : List (List InputEvent)}
    (h : ∀ e ∈ pending.take n, .quit ∉ e) (s : State) : ∃ t, batch n pending s = .running t := by
  cases hbatch : batch n pending s with
  | running t => exact ⟨t, rfl⟩
  | ended t =>
    obtain ⟨events, hmem, hquit⟩ := (batch_ended_iff n pending s).1 ⟨t, hbatch⟩
    exact absurd hquit (h events hmem)

/-- After a batch without a `Quit`, a longer batch goes on from where that one stood. -/
theorem batch_append_of_running {before : List (List InputEvent)} {s u : State}
    (h : batch before.length before s = .running u) (n : Nat) (rest : List (List InputEvent)) :
    batch (before.length + n) (before ++ rest) s = batch n rest u := by
  induction before generalizing s with
  | nil =>
    cases h
    rw [List.length_nil, Nat.zero_add, List.nil_append]
  | cons events later ih =>
    have hquit : .quit ∉ events := fun hmem => by
      obtain ⟨t, hdrain, -⟩ := exists_ended_of_quit_mem hmem s
      cases (batch_succ_of_ended (events :: later) hdrain _).symm.trans h
    obtain ⟨s', hdrain⟩ := exists_running_of_quit_notMem hquit s
    obtain ⟨t, hstep⟩ := exists_next_of_step s'
    have hlater := (batch_succ_of_running (events :: later) hdrain hstep later.length).symm.trans h
    rw [List.length_cons, Nat.succ_add, List.cons_append, batch_succ_of_running (events :: (later ++ rest)) hdrain hstep]
    exact ih hlater

/-- Settles O57: the batch runs up to the `Quit`, and there the drain ends it. -/
theorem quitEndsTheRunBeforeTheFetch : Obligations.QuitEndsTheRunBeforeTheFetch := by
  intro before events later n s hbefore hquit
  obtain ⟨u, hu⟩ := exists_running_of_batch (List.take_length (l := before) ▸ hbefore) s
  obtain ⟨t, hdrain, hframe⟩ := exists_ended_of_quit_mem hquit u
  refine ⟨u, t, hu, hdrain, ?_, hframe⟩
  rw [Nat.add_assoc, batch_append_of_running hu]
  exact batch_succ_of_ended (events :: later) hdrain n

/-- With no input a batch is just its steps. -/
theorem exists_run_eq_batch (n : Nat) (s : State) : ∃ t, core.run n s = .next t ∧ batch n [] s = .running t := by
  induction n generalizing s with
  | zero => exact ⟨s, rfl, rfl⟩
  | succ n ih =>
    obtain ⟨s', hstep⟩ := exists_next_of_step s
    obtain ⟨t, hrun, hbatch⟩ := ih s'
    exact ⟨t, (core_run_succ hstep n).trans hrun, (batch_succ_of_running [] rfl hstep n).trans hbatch⟩

/-- Settles O58: one step of the batch at a time, and the read-out put field by field. -/
theorem tickIsABatchThenTheBoundary : Obligations.TickIsABatchThenTheBoundary := by
  refine ⟨fun n events later s s' s'' hdrain hstep => batch_succ_of_running (events :: later) hdrain hstep n,
    fun n pending s h => exists_running_of_batch h s, exists_run_eq_batch, fun pending s b hbatch => ?_⟩
  rw [tick_of_batch_running hbatch, readOut_fst, readOut_snd]

/-! The tick and the run, tick by tick. -/

/-- A tick is a batch that runs to its end and then the read-out and the boundary, or a batch that a `Quit` ends. -/
theorem tick_cases (pending : List (List InputEvent)) (s : State) :
    (∃ b, batch s.cfg.cyclesPerTick pending s = .running b ∧
      tick pending s = .ticked (readOut b).1 (tickBoundary (readOut b).2)) ∨
    (∃ b, batch s.cfg.cyclesPerTick pending s = .ended b ∧ tick pending s = .ended b) := by
  cases hbatch : batch s.cfg.cyclesPerTick pending s with
  | running b => exact .inl ⟨b, rfl, tick_of_batch_running hbatch⟩
  | ended b => exact .inr ⟨b, rfl, by rw [tick, hbatch]⟩

/-- What every step and every operation of the host keeps. -/
structure Kept (P : State → Prop) : Prop where
  of_keyEvent : ∀ s e, P s → P (keyEvent e s)
  of_step : ∀ s t, P s → step s = .next t → P t
  of_readOut : ∀ s, P s → P (readOut s).2
  of_tickBoundary : ∀ s, P s → P (tickBoundary s)

section
variable {P : State → Prop}

theorem Kept.drain (h : Kept P) (events : List InputEvent) {s : State} (hs : P s) : P (drain events s).state := by
  induction events generalizing s with
  | nil => exact hs
  | cons e rest ih =>
    by_cases he : e = .quit
    · subst he
      exact hs
    · rw [drain_cons_of_ne_quit he]
      exact ih (h.of_keyEvent s e hs)

theorem Kept.batch (h : Kept P) (n : Nat) (pending : List (List InputEvent)) {s : State} (hs : P s) :
    P (batch n pending s).state := by
  induction n generalizing pending s with
  | zero => exact hs
  | succ n ih =>
    have hdrained := h.drain (pending.headD []) hs
    cases hdrain : Machine.drain (pending.headD []) s with
    | ended t =>
      rw [hdrain] at hdrained
      rwa [batch_succ_of_ended pending hdrain]
    | running t =>
      rw [hdrain] at hdrained
      obtain ⟨u, hu⟩ := exists_next_of_step t
      rw [batch_succ_of_running pending hdrain hu]
      exact ih _ (h.of_step t u hdrained hu)

/-- The state a complete tick leaves, and the one at the `Quit` that ends a tick. -/
theorem Kept.tick (h : Kept P) (pending : List (List InputEvent)) {s : State} (hs : P s) :
    (∀ pushed t, tick pending s = .ticked pushed t → P t) ∧ ∀ t, tick pending s = .ended t → P t := by
  have hbatched := h.batch s.cfg.cyclesPerTick pending hs
  obtain ⟨b, hbatch, htick⟩ | ⟨b, hbatch, htick⟩ := tick_cases pending s
  all_goals rw [hbatch] at hbatched
  · refine ⟨fun pushed t ht => ?_, fun t ht => ?_⟩
    all_goals cases htick.symm.trans ht
    exact h.of_tickBoundary _ (h.of_readOut b hbatched)
  · refine ⟨fun pushed t ht => ?_, fun t ht => ?_⟩
    all_goals cases htick.symm.trans ht
    exact hbatched

theorem Kept.runTicks (h : Kept P) (input : List (List (List InputEvent))) {s : State} (hs : P s) :
    P (runTicks input s).last.state := by
  induction input generalizing s with
  | nil => exact hs
  | cons pending later ih =>
    obtain ⟨hticked, hended⟩ := h.tick pending hs
    rw [runTicks_cons]
    cases htick : Machine.tick pending s with
    | ticked pushed t => exact ih (hticked pushed t htick)
    | ended t => exact hended t htick

end

theorem kept_inv : Kept State.Inv where
  of_keyEvent _ e hs := inv_keyEvent hs e
  of_step _ _ hs h := inv_of_step hs h
  of_readOut _ hs := inv_readOut hs
  of_tickBoundary _ hs := hs

theorem kept_cfg (cfg : Config) : Kept (·.cfg = cfg) where
  of_keyEvent s e hs := (onlyWrites_keyEvent e s .cfg (by simp)).trans hs
  of_step _ _ hs h := (cfg_of_step h).trans hs
  of_readOut s hs := by rwa [readOut_snd]
  of_tickBoundary _ hs := hs

/-- Settles O22: the invariant goes through the batch, the read-out clears `dirty`, and the boundary opens the gate. -/
theorem tickKeepsTheInvariant : Obligations.TickKeepsTheInvariant := by
  intro pending s t pushed hs htick
  obtain ⟨hinv, -⟩ := kept_inv.tick pending hs
  refine ⟨hinv pushed t htick, ?_⟩
  obtain ⟨b, -, hb⟩ | ⟨b, -, hb⟩ := tick_cases pending s
  all_goals cases hb.symm.trans htick
  rw [readOut_snd]
  exact ⟨rfl, rfl⟩

theorem hostRun_eq_some_iff {cfg : Config} {rom : List Byte} {input : List (List (List InputEvent))} {r : RunResult} :
    hostRun cfg rom input = some r ↔ ∃ s, construct cfg rom = some s ∧ runTicks input s = r :=
  Option.map_eq_some_iff

/-- Settles O60: construction establishes what every step and every operation of the host keeps. -/
theorem runKeepsTheInvariant : Obligations.RunKeepsTheInvariant := by
  intro cfg rom input r hrun
  obtain ⟨s, hconstruct, rfl⟩ := hostRun_eq_some_iff.1 hrun
  exact ⟨kept_inv.runTicks input (inv_of_construct hconstruct), (kept_cfg cfg).runTicks input (cfg_of_construct hconstruct)⟩

/-! Where a run ends. -/

theorem tick_ended_iff (pending : List (List InputEvent)) (s : State) :
    (∃ t, tick pending s = .ended t) ↔ ∃ events ∈ pending.take s.cfg.cyclesPerTick, .quit ∈ events := by
  rw [← batch_ended_iff _ _ s]
  obtain ⟨b, hbatch, htick⟩ | ⟨b, hbatch, htick⟩ := tick_cases pending s
  · simp [hbatch, htick]
  · simp [hbatch, htick]

/-- A run ends exactly where a `Quit` comes before one of the steps of one of its ticks. -/
theorem runTicks_ended_iff (input : List (List (List InputEvent))) (s : State) :
    (∃ t, (runTicks input s).last = .ended t) ↔
      ∃ pending ∈ input, ∃ events ∈ pending.take s.cfg.cyclesPerTick, .quit ∈ events := by
  induction input generalizing s with
  | nil => simp
  | cons pending later ih =>
    simp only [List.mem_cons, exists_eq_or_imp]
    rw [← tick_ended_iff, runTicks_cons]
    cases htick : tick pending s with
    | ended t => simp
    | ticked pushed t =>
      have hcfg : t.cfg = s.cfg := ((kept_cfg s.cfg).tick pending rfl).1 pushed t htick
      simp [ih, hcfg]

theorem length_images_le (input : List (List (List InputEvent))) (s : State) :
    (runTicks input s).images.length ≤ input.length := by
  induction input generalizing s with
  | nil => exact le_rfl
  | cons pending later ih =>
    rw [runTicks_cons]
    cases tick pending s with
    | ended t => exact Nat.zero_le _
    | ticked pushed t =>
      have hpushed : pushed.toList.length ≤ 1 := by cases pushed <;> simp
      have hlater := ih t
      rw [TickResult.andThen_ticked, List.length_append, List.length_cons]
      omega

/-- A run that has not ended goes on, with more input, from where it stands. -/
theorem runTicks_append_of_running {input : List (List (List InputEvent))} {s u : State}
    (h : (runTicks input s).last = .running u) (later : List (List (List InputEvent))) :
    runTicks (input ++ later) s =
      { images := (runTicks input s).images ++ (runTicks later u).images, last := (runTicks later u).last } := by
  induction input generalizing s with
  | nil =>
    cases h
    rfl
  | cons pending rest ih =>
    rw [List.cons_append, runTicks_cons, runTicks_cons]
    rw [runTicks_cons] at h
    cases htick : tick pending s with
    | ended t =>
      rw [htick] at h
      cases h
    | ticked pushed t =>
      rw [htick] at h
      simp only [TickResult.andThen_ticked, ih h, List.append_assoc]

/-- A run that has ended takes no more input. -/
theorem runTicks_append_of_ended {input : List (List (List InputEvent))} {s u : State}
    (h : (runTicks input s).last = .ended u) (later : List (List (List InputEvent))) :
    runTicks (input ++ later) s = runTicks input s := by
  induction input generalizing s with
  | nil => cases h
  | cons pending rest ih =>
    rw [List.cons_append, runTicks_cons, runTicks_cons]
    rw [runTicks_cons] at h
    cases htick : tick pending s with
    | ended t => rfl
    | ticked pushed t =>
      rw [htick] at h
      simp only [TickResult.andThen_ticked, ih h]

/-- Settles O59: the run tick by tick, each tick's batch ending where a `Quit` comes before one of its steps. -/
theorem runRepeatsTheTickUntilQuit : Obligations.RunRepeatsTheTickUntilQuit := by
  refine ⟨fun cfg rom input => ⟨fun hnone => ?_, fun s hsome => ⟨?_, ?_⟩⟩, length_images_le,
    fun input pending s u hrunning => ⟨fun t htick => ?_, fun pushed t htick => ?_⟩,
    fun input later s u hended => runTicks_append_of_ended hended later⟩
  · rw [hostRun, hnone, Option.map_none]
  · rw [hostRun, hsome, Option.map_some]
  · rw [runTicks_ended_iff, cfg_of_construct hsome]
  · rw [runTicks_append_of_running hrunning, runTicks_cons, htick, TickResult.andThen_ended, List.append_nil]
  · rw [runTicks_append_of_running hrunning, runTicks_cons, htick, TickResult.andThen_ticked, runTicks_nil, List.append_nil]

end Sys2Proof
end
